-- ==== Sys2Proof/Word.lean ====
section
/-! DEFINITION. Word.lean: the bit vectors the block's ports and registers carry (R7, R43). -/

namespace Sys2Proof

/-- A polynomial, accumulator, table entry or response datum: `W` = 32 bits (R7). -/
abbrev Word := BitVec 32

/-- The input unit of a fold and the table index: 8 bits (R7). -/
abbrev Byte := BitVec 8

/-- A command word, `cmd_word[39:0]` (R43). -/
abbrev CmdWord := BitVec 40

end Sys2Proof
end

