-- ==== Sys2Proof/Syntax.lean ====
section
/-! DEFINITION. Syntax.lean: the 13 commands, one constructor per row of the opcode map (R45). -/

namespace Sys2Proof

/-- A decoded command with the operand its form carries (R44, R45). -/
inductive Instr where
  | nop
  | wrpoly (imm32 : Word)
  | build
  | start
  | stop
  | ackerr
  | clear
  | fold (b : Byte)
  | final
  | rdacc
  | rdpoly
  | rdtab (i : Byte)
  | rdstat
  deriving DecidableEq, Repr

end Sys2Proof
end

