-- ==== Sys2Proof/WellFormed.lean ====
section
/-! DEFINITION. WellFormed.lean: the three operand forms, what an operand field of each form may hold (R44), and the
check that an instruction's operand field obeys its form. -/

namespace Sys2Proof

/-- The operand forms of R44. -/
inductive Form where
  | none
  | imm8
  | imm32
  deriving DecidableEq, Repr

/-- Whether a 32-bit operand field is one of the form: every bit outside the form's field is 0 (R44). -/
def Form.operandOk : Form → Word → Bool
  | .none, operand => operand == 0#32
  | .imm8, operand => operand.extractLsb' 8 24 == 0#24
  | .imm32, _ => true

/-- The form of each command (R45). -/
def Instr.form : Instr → Form
  | .nop | .build | .start | .stop | .ackerr | .clear | .final | .rdacc | .rdpoly | .rdstat => .none
  | .wrpoly _ => .imm32
  | .fold _ | .rdtab _ => .imm8

/-- The operand field a command carries: its immediate, zero-extended to 32 bits (R43, R44). -/
def Instr.operand : Instr → Word
  | .nop | .build | .start | .stop | .ackerr | .clear | .final | .rdacc | .rdpoly | .rdstat => 0#32
  | .wrpoly imm32 => imm32
  | .fold b => b.setWidth 32
  | .rdtab i => i.setWidth 32

/-- An instruction is well formed when its operand field obeys its form. Operand widths are in the types of `Instr`, so
this holds of every instruction (Laws.WordFields); the check can fail only on a raw operand field. -/
def Instr.wellFormed (i : Instr) : Bool := i.form.operandOk i.operand

end Sys2Proof
end

