-- ==== Sys2Proof/Decode.lean ====
section
/-! DEFINITION. Decode.lean: the fields of a command word (R43), the total decoder with its named rejections (R46, R47),
the encoder (R43, R50), and the match and mask rows of R46. -/

namespace Sys2Proof

/-- `op = cmd_word[39:32]` (R43). -/
def opField (w : CmdWord) : Byte := w.extractLsb' 32 8

/-- `operand = cmd_word[31:0]` (R43). -/
def operandField (w : CmdWord) : Word := w.extractLsb' 0 32

/-- `imm8 = cmd_word[7:0]` (R44). -/
def imm8Field (w : CmdWord) : Byte := w.extractLsb' 0 8

/-- Why a word is no command (R47); either way the block rejects it with `ILLEGAL_CMD` (R81). -/
inductive DecodeError where
  /-- The opcode is one of the 243 reserved values. -/
  | reservedOpcode (op : Byte)
  /-- The opcode is defined, and bits outside its form's fields are not 0. -/
  | operandBits (op : Byte) (operand : Word)
  deriving DecidableEq, Repr

/-- The instruction, if the word's operand field obeys the form (R44). -/
def checkForm (f : Form) (w : CmdWord) (i : Instr) : Except DecodeError Instr :=
  if f.operandOk (operandField w) then .ok i else .error (.operandBits (opField w) (operandField w))

/-- Decoding (R45, R46): total on every 40-bit word. -/
def decode (w : CmdWord) : Except DecodeError Instr :=
  match opField w with
  | 0x00#8 => checkForm .none w .nop
  | 0x01#8 => checkForm .imm32 w (.wrpoly (operandField w))
  | 0x02#8 => checkForm .none w .build
  | 0x03#8 => checkForm .none w .start
  | 0x04#8 => checkForm .none w .stop
  | 0x05#8 => checkForm .none w .ackerr
  | 0x10#8 => checkForm .none w .clear
  | 0x11#8 => checkForm .imm8 w (.fold (imm8Field w))
  | 0x12#8 => checkForm .none w .final
  | 0x20#8 => checkForm .none w .rdacc
  | 0x21#8 => checkForm .none w .rdpoly
  | 0x22#8 => checkForm .imm8 w (.rdtab (imm8Field w))
  | 0x23#8 => checkForm .none w .rdstat
  | op => .error (.reservedOpcode op)

/-- The opcode of each command (R45). -/
def Instr.opcode : Instr → Byte
  | .nop => 0x00#8
  | .wrpoly _ => 0x01#8
  | .build => 0x02#8
  | .start => 0x03#8
  | .stop => 0x04#8
  | .ackerr => 0x05#8
  | .clear => 0x10#8
  | .fold _ => 0x11#8
  | .final => 0x12#8
  | .rdacc => 0x20#8
  | .rdpoly => 0x21#8
  | .rdtab _ => 0x22#8
  | .rdstat => 0x23#8

/-- The command word `{op, operand}` (R43, R50). -/
def encode (i : Instr) : CmdWord := i.opcode ++ i.operand

/-- One row of R46: a word is the row's command when `(w AND mask) = match`. `toInstr` builds the command from the
word's operand field. -/
structure OpRow where
  pattern : CmdWord
  mask    : CmdWord
  toInstr : Word → Instr

/-- Whether a word matches a row (R46). -/
def OpRow.accepts (r : OpRow) (w : CmdWord) : Bool := w &&& r.mask == r.pattern

/-- The match and mask table of R46. -/
def opTable : List OpRow :=
  [ ⟨0x0000000000#40, 0xFFFFFFFFFF#40, fun _ => .nop⟩,
    ⟨0x0100000000#40, 0xFF00000000#40, fun v => .wrpoly v⟩,
    ⟨0x0200000000#40, 0xFFFFFFFFFF#40, fun _ => .build⟩,
    ⟨0x0300000000#40, 0xFFFFFFFFFF#40, fun _ => .start⟩,
    ⟨0x0400000000#40, 0xFFFFFFFFFF#40, fun _ => .stop⟩,
    ⟨0x0500000000#40, 0xFFFFFFFFFF#40, fun _ => .ackerr⟩,
    ⟨0x1000000000#40, 0xFFFFFFFFFF#40, fun _ => .clear⟩,
    ⟨0x1100000000#40, 0xFFFFFFFF00#40, fun v => .fold (v.setWidth 8)⟩,
    ⟨0x1200000000#40, 0xFFFFFFFFFF#40, fun _ => .final⟩,
    ⟨0x2000000000#40, 0xFFFFFFFFFF#40, fun _ => .rdacc⟩,
    ⟨0x2100000000#40, 0xFFFFFFFFFF#40, fun _ => .rdpoly⟩,
    ⟨0x2200000000#40, 0xFFFFFFFF00#40, fun v => .rdtab (v.setWidth 8)⟩,
    ⟨0x2300000000#40, 0xFFFFFFFFFF#40, fun _ => .rdstat⟩ ]

/-- The command word whose bits the host numbers `w`, of which the table gives `nbits`; every bit above is 0. -/
def tableWord (nbits w : Nat) : CmdWord := BitVec.ofNat 40 (w % 2 ^ nbits)

/-- What the decoder reads from a word numbered as opcode_table.json numbers it. Every command is exactly one 40-bit
word (R49), so a longer row is none (log entry 21). -/
def decodeTableWord (nbits w : Nat) : Option Instr :=
  if nbits ≤ 40 then (decode (tableWord nbits w)).toOption else none

end Sys2Proof
end

