-- ==== Sys2Proof/Config.lean ====
section
/-! DEFINITION. Config.lean: what is fixed for the block (R7, R8) and what an implementation leaves open (R9, R36). -/

namespace Sys2Proof.Config

/-- `POLY_RESET` (R8). -/
def polyReset : Word := 0x04C11DB7#32

/-- `N_TABLE` (R7): the number of table entries. -/
abbrev tableEntries : Nat := 256

/-- Rounds per table entry (R7). -/
abbrev roundsPerEntry : Nat := 8

/-- `W - 8`, the initial shift of byte `i` in the table generator (R7). -/
abbrev initialShift : Nat := 24

/-- `LAT_BUILD - 1`: OPEN, no value (R9, D23; log entry 6). -/
opaque latBuildExtra : Nat

/-- `LAT_CMD - 1`: OPEN, no value (R9, D23; log entry 6). -/
opaque latCmdExtra : Nat

/-- `LAT_BUILD`, the clock cycles BUILD takes: finite and at least 1 (R9). -/
def latBuild : Nat := latBuildExtra + 1

/-- `LAT_CMD`, the clock cycles any other command takes: finite and at least 1 (R9). -/
def latCmd : Nat := latCmdExtra + 1

/-- `CMD_PORT_BASE`, where the platform places the command port: OPEN, used by no rule (R36, D28; log entry 13). -/
opaque cmdPortBase : Nat

end Sys2Proof.Config
end

