-- ==== Sys2Proof/Machine/State.lean ====
section
/-! DEFINITION. Machine/State.lean: the state record of R13, the command port (R26, R41, R42), the host's side (R27, R98,
R99), the state after reset (R92), and the reasons a step can stop. -/

namespace Sys2Proof.Machine

/-- One entry of the table index space (R29): its index and its 32-bit value. -/
abbrev Cell := Nat × Word

/-- The table storage (R15, R29): the entries that differ from what an unlisted index reads as, indices strictly rising
(Memory.wf in Ops.lean; log entries 1 and 2). -/
abbrev Memory := List Cell

/-- The architectural state: the record of R13, and nothing else. -/
structure Block where
  /-- `POLY` (R14). -/
  poly       : Word
  /-- `TABLE[0..255]` (R15). -/
  table      : Memory
  /-- `TABLE_VALID` (R16). -/
  tableValid : Bool
  /-- `ACC` (R18). -/
  acc        : Word
  /-- `ACTIVE` (R19): false is idle. -/
  active     : Bool
  /-- `ERR` (R20). -/
  err        : Bool
  /-- `ERRCODE` (R21). -/
  errCode    : BitVec 4
  deriving DecidableEq, Repr

/-- A response `(rsp_ok, rsp_data)` (R48). -/
structure Response where
  ok   : Bool
  data : Word
  deriving DecidableEq, Repr

/-- The port between acceptance and response (R26 (a), (b), R42): at most one command is outstanding. -/
inductive Port where
  /-- No command is outstanding. -/
  | idle
  /-- A command was accepted and its response is not taken; `rsp_valid` is 1 once `wait` is 0 (log entry 6). -/
  | outstanding (wait : Nat) (r : Response)
  deriving DecidableEq, Repr

/-- What the host does at one rising edge of `clk`: its moves of R99, and no other (log entry 15). -/
structure PortIn where
  /-- `rst_n`: false requests reset. -/
  rstN     : Bool
  /-- The word the host chooses to offer next, if none waits already. It is on the port only at an edge with `cmd_ready = 1`
  (`cmdOffered`). -/
  cmd      : Option CmdWord
  /-- `rsp_ready`. -/
  rspReady : Bool
  deriving DecidableEq, Repr

/-- A host that does nothing: no reset, no new command, no response taken (log entry 4). -/
def PortIn.quiet : PortIn := ⟨true, none, false⟩

/-- The machine: the block's record and port, and the host at the other end of the port. -/
structure State where
  /-- The state record (R13). -/
  block : Block
  /-- The command and response port (R42). -/
  port  : Port
  /-- The host's moves at the coming edges, the next one first; past its end it does nothing (log entry 4). -/
  host  : List PortIn
  /-- The word the host has chosen to offer and waits with, not on the port, until `cmd_ready` is 1 (R95, R99; log
  entry 15). -/
  pending : Option CmdWord
  /-- The responses the host has taken, oldest first: the observation of R98, host-side data by R27 (log entry 12). -/
  taken : List Response
  deriving DecidableEq, Repr

/-- The reset values of R13 and R92; the table lists nothing (log entry 1: the spec gives its contents no value). -/
def Block.reset : Block where
  poly := Config.polyReset
  table := []
  tableValid := false
  acc := 0#32
  active := false
  err := false
  errCode := 0#4

/-- The machine right after reset (R92): no command outstanding or chosen, no move yet, no
response yet (R98). -/
def State.reset : State where
  block := Block.reset
  port := .idle
  host := []
  pending := none
  taken := []

/-- Reasons the machine stops with a fault. There are none: a rejected command is a next state (R80), the port is never
blocked (R80, R97), and no access can leave the table index space (R29; log entry 16). -/
inductive Fault where
  deriving DecidableEq, Repr

/-- Reasons the model gives no meaning. -/
inductive Refusal where
  /-- Raised only by an arm of `exec` for a command without a meaning; no arm raises it. Safe: nothing is claimed of
  a refused command. -/
  | notModelled (mnemonic : String)
  deriving DecidableEq, Repr

/-- What a command, an edge or a run answers. -/
abbrev Answer := Host.Outcome State Fault Refusal

end Sys2Proof.Machine
end

