-- ==== Sys2Proof/Machine/Flags.lean ====
section
/-! DEFINITION. Machine/Flags.lean: the rejection codes (R81) and the status word (R22). The block has no arithmetic
flags (R25). -/

namespace Sys2Proof.Machine

/-- The causes of a rejection (R81). Code 0, `NONE`, is never one of them. -/
inductive RejectCode where
  | illegalCmd
  | cfgActive
  | badTransition
  | noTable
  deriving DecidableEq, Repr

/-- The code `ERRCODE` and `rsp_data` carry (R81). -/
def RejectCode.code : RejectCode → BitVec 4
  | .illegalCmd => 1#4
  | .cfgActive => 2#4
  | .badTransition => 3#4
  | .noTable => 4#4

/-- The status word `zext_32({ERRCODE, 0, ERR, ACTIVE, TABLE_VALID})` (R22). -/
def statusWord (b : Block) : Word :=
  (b.errCode ++ 0#1 ++ BitVec.ofBool b.err ++ BitVec.ofBool b.active ++ BitVec.ofBool b.tableValid).setWidth 32

end Sys2Proof.Machine
end

