-- ==== Sys2Proof/Machine/Operands.lean ====
section
/-! DEFINITION. Machine/Operands.lean: how operands and codes enter 32-bit values (R10, R33, R44, R48), and the table
index a fold computes (R60). No operand is sign-extended, scaled or shifted (R44). -/

namespace Sys2Proof.Machine

/-- `zext_32` of an 8-bit operand (R44). -/
def zextByte (b : Byte) : Word := b.setWidth 32

/-- `zext_32(code)`, the response data of a rejection (R48). -/
def zextCode (c : BitVec 4) : Word := c.setWidth 32

/-- The index of a fold, `((a >> 24) XOR zext_32(b)) AND 0xFF` (R60). -/
def foldIndex (a : Word) (b : Byte) : Byte :=
  (((a >>> 24) ^^^ zextByte b) &&& 0xFF#32).setWidth 8

end Sys2Proof.Machine
end

