-- ==== Sys2Proof/Machine/Crc.lean ====
section
/-! DEFINITION. Machine/Crc.lean: the pure functions of the CRC: the table generator (R52), the fold (R60), the segment
function and its bit-serial form (R65). All arithmetic is 32-bit, unsigned, MSB first; nothing is reflected (R11, R32, R64). -/

namespace Sys2Proof.Machine

/-- One round: shift left, and XOR the polynomial in if the bit shifted out was 1 (R52). -/
def crcRound (p r : Word) : Word := if r.getLsbD 31 then (r <<< 1) ^^^ p else r <<< 1

/-- `n` rounds (R52). -/
def crcRounds (p : Word) : Nat → Word → Word
  | 0, r => r
  | n + 1, r => crcRounds p n (crcRound p r)

/-- `build_table(p)` (R52), the array `[0..255]` as a function of its index. -/
def buildTable (p : Word) (i : Byte) : Word :=
  crcRounds p Config.roundsPerEntry (zextByte i <<< Config.initialShift)

/-- `fold(a, b, T)` (R60). -/
def fold (a : Word) (b : Byte) (T : Byte → Word) : Word := (a <<< 8) ^^^ T (foldIndex a b)

/-- Folding a sequence of bytes, the first byte first (R31). -/
def foldBytes (T : Byte → Word) (a : Word) (bs : List Byte) : Word := bs.foldl (fun a b => fold a b T) a

/-- `crc_seg(p, bs)` (R65): from 0, fold every byte, complement once. -/
def crcSeg (p : Word) (bs : List Byte) : Word := ~~~ foldBytes (buildTable p) 0#32 bs

/-- A fold as eight bit-serial rounds (R65). -/
def bitSerialFold (p a : Word) (b : Byte) : Word := crcRounds p 8 (a ^^^ (zextByte b <<< 24))

end Sys2Proof.Machine
end

