-- ==== Sys2Proof/Machine/Ops.lean ====
section
/-! DEFINITION. Machine/Ops.lean: the operations every command is written from: reading and writing the table storage
(R12, R29), writing a register, answering a command (R48) and rejecting one (R80). -/

namespace Sys2Proof.Machine

/-- What an index that is not listed reads as. The spec gives such contents no value (R15); log entry 1. -/
def Memory.unlisted : Word := 0#32

/-- Reading the storage at an index. -/
def Memory.read : Memory → Nat → Word
  | [], _ => Memory.unlisted
  | (k, v) :: rest, i => if i = k then v else Memory.read rest i

/-- Writing the storage at an index; a value equal to what an unlisted index reads as is not listed. -/
def Memory.write : Memory → Nat → Word → Memory
  | [], i, v => if v = Memory.unlisted then [] else [(i, v)]
  | (k, x) :: rest, i, v =>
    if i < k then (if v = Memory.unlisted then (k, x) :: rest else (i, v) :: (k, x) :: rest)
    else if i = k then (if v = Memory.unlisted then rest else (i, v) :: rest)
    else (k, x) :: Memory.write rest i v

/-- The canonical form from index `lo` up: indices strictly rising and below 256, no entry with the unlisted value. -/
def Memory.wfFrom : Nat → Memory → Bool
  | _, [] => true
  | lo, (k, v) :: rest =>
    decide (lo ≤ k) && decide (k < Config.tableEntries) && !(v == Memory.unlisted) && Memory.wfFrom (k + 1) rest

/-- The canonical form of the table storage: equal contents are equal lists. -/
def Memory.wf (m : Memory) : Bool := Memory.wfFrom 0 m

/-- `TableRead(i)` (R12). -/
def tableRead (m : Memory) (i : Byte) : Word := Memory.read m i.toNat

/-- `TableWrite(i, v)` (R12). -/
def tableWrite (m : Memory) (i : Byte) (v : Word) : Memory := Memory.write m i.toNat v

/-- The indices `0 .. 255` in order (R29). Irreducible, so that no unification runs 256 writes; the kernel evaluates it
as any other definition. -/
@[irreducible] def tableIndices : List Byte := (List.range Config.tableEntries).map (BitVec.ofNat 8)

/-- `for i in 0 .. 255: TableWrite(i, T[i])` (R55). What it leaves is `fillTable_read` in Laws/Memory.lean. -/
def fillTable (T : Byte → Word) (m : Memory) : Memory := tableIndices.foldl (fun m i => tableWrite m i (T i)) m

/-- `POLY <- v`. -/
def State.setPoly (s : State) (v : Word) : State := { s with block := { s.block with poly := v } }

/-- The whole of `TABLE <- m`. -/
def State.setTable (s : State) (m : Memory) : State := { s with block := { s.block with table := m } }

/-- `TABLE_VALID <- v`. -/
def State.setTableValid (s : State) (v : Bool) : State := { s with block := { s.block with tableValid := v } }

/-- `ACC <- v`. -/
def State.setAcc (s : State) (v : Word) : State := { s with block := { s.block with acc := v } }

/-- `ACTIVE <- v`. -/
def State.setActive (s : State) (v : Bool) : State := { s with block := { s.block with active := v } }

/-- `ERR <- e` and `ERRCODE <- c`: the two are only ever written together (R20, R21). -/
def State.setError (s : State) (e : Bool) (c : BitVec 4) : State :=
  { s with block := { s.block with err := e, errCode := c } }

/-- The response the block holds for the command just performed, with the edges still to wait before it is offered. -/
def State.setPort (s : State) (p : Port) : State := { s with port := p }

/-- The word the host waits with. -/
def State.setPending (s : State) (o : Option CmdWord) : State := { s with pending := o }

/-- `respond(v)`: the command ends accepted with data `v` (R12, R48). -/
def respond (v : Word) (s : State) : Answer := .next (s.setPort (.outstanding 0 ⟨true, v⟩))

/-- `raise Reject(code)`: `ERR` and `ERRCODE` are written, the response is `(0, zext_32(code))`, nothing else changes (R80). -/
def reject (c : RejectCode) (s : State) : Answer :=
  .next ((s.setError true c.code).setPort (.outstanding 0 ⟨false, zextCode c.code⟩))

/-- A reset edge: every field of the record takes its reset value and an outstanding command is abandoned without a
response (R92 (c), (d), (e); log entry 9). The host's moves, the word it waits with (log
entry 15) and the responses it has taken are not the block's (R27). -/
def resetEdge (s : State) : State := { s with block := Block.reset, port := .idle }

/-- Taking the response: the host has it, and no command is outstanding (R42 (c)). -/
def State.takeResponse (s : State) : State :=
  match s.port with
  | .outstanding _ r => { s with port := .idle, taken := s.taken ++ [r] }
  | .idle => s

/-- What an answer's next state becomes under `f`. -/
def onNext (f : State → State) : Answer → Answer
  | .next s => .next (f s)
  | .fault r => .fault r
  | .refused r => .refused r

/-- One answer after another. -/
def andThen (o : Answer) (f : State → Answer) : Answer :=
  match o with
  | .next s => f s
  | .fault r => .fault r
  | .refused r => .refused r

end Sys2Proof.Machine
end

