-- ==== Sys2Proof/Machine/ConfigCmds.lean ====
section
/-! DEFINITION. Machine/ConfigCmds.lean: the configuration and lifecycle commands (R54 to R59). Checks come before the
first write, in the order the pseudocode gives them (R12, R83). -/

namespace Sys2Proof.Machine

/-- NOP (R59). -/
def execNop (s : State) : Answer := respond 0#32 s

/-- WRPOLY (R54): only a changed value clears `TABLE_VALID`; `TABLE` is BUILD's alone to write (R15). -/
def execWrpoly (imm32 : Word) (s : State) : Answer :=
  if s.block.active then reject .cfgActive s
  else
    let invalidated := if imm32 = s.block.poly then s else s.setTableValid false
    respond 0#32 (invalidated.setPoly imm32)

/-- BUILD (R55). -/
def execBuild (s : State) : Answer :=
  if s.block.active then reject .cfgActive s
  else respond 0#32 ((s.setTable (fillTable (buildTable s.block.poly) s.block.table)).setTableValid true)

/-- START (R56): `BAD_TRANSITION` is checked before `NO_TABLE` (R83). -/
def execStart (s : State) : Answer :=
  if s.block.active then reject .badTransition s
  else if s.block.tableValid then respond 0#32 ((s.setAcc 0#32).setActive true)
  else reject .noTable s

/-- STOP (R57). -/
def execStop (s : State) : Answer :=
  if s.block.active then respond 0#32 (s.setActive false) else reject .badTransition s

/-- ACKERR (R58). -/
def execAckerr (s : State) : Answer := respond 0#32 (s.setError false 0#4)

end Sys2Proof.Machine
end

