-- ==== Sys2Proof/Machine/Datapath.lean ====
section
/-! DEFINITION. Machine/Datapath.lean: the feedback loop's commands CLEAR, FOLD and FINAL (R61 to R63), legal in both
modes (R86). -/

namespace Sys2Proof.Machine

/-- CLEAR (R61). -/
def execClear (s : State) : Answer := respond 0#32 (s.setAcc 0#32)

/-- FOLD (R62): rejected while the table is not valid, else one fold through the stored table. -/
def execFold (b : Byte) (s : State) : Answer :=
  if s.block.tableValid then respond 0#32 (s.setAcc (fold s.block.acc b (tableRead s.block.table)))
  else reject .noTable s

/-- FINAL (R63). -/
def execFinal (s : State) : Answer := respond 0#32 (s.setAcc (~~~ s.block.acc))

end Sys2Proof.Machine
end

