-- ==== Sys2Proof/Machine/Readback.lean ====
section
/-! DEFINITION. Machine/Readback.lean: the read commands RDACC, RDPOLY, RDTAB and RDSTAT (R67 to R70). Accepted, they
change no state (R35 (e)). -/

namespace Sys2Proof.Machine

/-- RDACC (R67). -/
def execRdacc (s : State) : Answer := respond s.block.acc s

/-- RDPOLY (R68), whether or not the table is built. -/
def execRdpoly (s : State) : Answer := respond s.block.poly s

/-- RDTAB (R69): rejected while the table is not valid. -/
def execRdtab (i : Byte) (s : State) : Answer :=
  if s.block.tableValid then respond (tableRead s.block.table i) s else reject .noTable s

/-- RDSTAT (R70); it does not clear `ERR`. -/
def execRdstat (s : State) : Answer := respond (statusWord s.block) s

end Sys2Proof.Machine
end

