-- ==== Sys2Proof/Machine/Dispatch.lean ====
section
/-! DEFINITION. Machine/Dispatch.lean: the meaning of each command of the opcode map (R45). -/

namespace Sys2Proof.Machine

def exec (i : Instr) (s : State) : Host.Outcome State Fault Refusal :=
  match i with
  | .nop => Sys2Proof.Machine.execNop s
  | .wrpoly imm32 => Sys2Proof.Machine.execWrpoly imm32 s
  | .build => Sys2Proof.Machine.execBuild s
  | .start => Sys2Proof.Machine.execStart s
  | .stop => Sys2Proof.Machine.execStop s
  | .ackerr => Sys2Proof.Machine.execAckerr s
  | .clear => Sys2Proof.Machine.execClear s
  | .fold b => Sys2Proof.Machine.execFold b s
  | .final => Sys2Proof.Machine.execFinal s
  | .rdacc => Sys2Proof.Machine.execRdacc s
  | .rdpoly => Sys2Proof.Machine.execRdpoly s
  | .rdtab idx => Sys2Proof.Machine.execRdtab idx s
  | .rdstat => Sys2Proof.Machine.execRdstat s

end Sys2Proof.Machine
end

