-- ==== Sys2Proof/Machine/Ports.lean ====
section
/-! DEFINITION. Machine/Ports.lean: a command at the command level (R5, R42), the port's outputs, and what one rising
edge of `clk` does (R41, R42, R92). -/

namespace Sys2Proof.Machine

/-- One command word at the command level (R5): decoded and performed, or rejected with `ILLEGAL_CMD` (R46). The answer's
next state holds the response. -/
def command (w : CmdWord) (s : State) : Answer :=
  match decode w with
  | .ok i => exec i s
  | .error _ => reject .illegalCmd s

/-- `cmd_ready` (R42 (b), R92 (b), (f)): no command is outstanding and `rst_n` is 1 (log entry 7). -/
def cmdReady (s : State) (rstN : Bool) : Bool := rstN && decide (s.port = .idle)

/-- `rsp_valid` with `rsp_ok` and `rsp_data` (R42 (c), R92 (b)): none is `rsp_valid = 0` (log entry 11). -/
def rspOffered (s : State) (rstN : Bool) : Option Response :=
  match rstN, s.port with
  | true, .outstanding 0 r => some r
  | _, _ => none

/-- The edges before the response to an accepted word is offered: `LAT_BUILD` cycles for BUILD and `LAT_CMD` for any
other word lie between acceptance and the first edge the response can be taken at (R42 (e); log entry 6). -/
def waitEdges (w : CmdWord) : Nat :=
  match decode w with
  | .ok .build => Config.latBuildExtra
  | _ => Config.latCmdExtra

/-- The response waits `n` edges more. -/
def State.holdResponse (n : Nat) (s : State) : State :=
  match s.port with
  | .outstanding _ r => s.setPort (.outstanding n r)
  | .idle => s

/-- The block accepts a word: the command is performed and its response is outstanding (R42 (a), (b); log entry 8). -/
def accept (w : CmdWord) (s : State) : Answer := onNext (State.holdResponse (waitEdges w)) (command w s)

/-- The host's move at the next edge; past its list it does nothing (log entry 4). -/
def State.nextInput (s : State) : PortIn := s.host.headD PortIn.quiet

/-- The word the host has at hand when it comes to the next edge: the one that waits, else the one it chooses there. -/
def State.chosen (s : State) : Option CmdWord := s.pending.or s.nextInput.cmd

/-- The host comes to the next edge: its list moves on, and it has a word at hand. -/
def State.advanceHost (s : State) : State := { s with host := s.host.tail, pending := s.chosen }

/-- `cmd_valid` with `cmd_word` (R41) for a host that has come to the edge: it offers a word when `cmd_ready` is 1 and at no
other time (R95, R99). None is `cmd_valid = 0`. -/
def cmdOffered (s : State) (rstN : Bool) : Option CmdWord := if cmdReady s rstN then s.pending else none

/-- `cmd_valid` with `cmd_word` at the next edge. -/
def State.offered (s : State) : Option CmdWord := cmdOffered s.advanceHost s.nextInput.rstN

/-- One rising edge, the host's lines being `i.rstN`, `i.rspReady` and the word offered (R42, R92): reset takes precedence
(R92 (e)); a command is accepted when one is offered, so only when none is outstanding; an offered response stays until it is taken. -/
def portEdge (i : PortIn) (s : State) : Answer :=
  match i.rstN, s.port with
  | false, _ => .next (resetEdge s)
  | true, .idle =>
    match cmdOffered s true with
    | some w => accept w (s.setPending none)
    | none => .next s
  | true, .outstanding 0 _ => if i.rspReady then .next s.takeResponse else .next s
  | true, .outstanding (n + 1) r => .next (s.setPort (.outstanding n r))

/-- A move that chooses a command to offer. -/
def PortIn.offer (w : CmdWord) : PortIn := ⟨true, some w, false⟩

/-- A move that takes a response. -/
def PortIn.take : PortIn := ⟨true, none, true⟩

/-- A move that asserts reset. -/
def PortIn.resetLine : PortIn := ⟨false, none, false⟩

end Sys2Proof.Machine
end

