-- ==== Sys2Proof/Machine/Step.lean ====
section
/-! DEFINITION. Machine/Step.lean: one step of the machine is one rising edge of `clk` (R41; log entry 3). -/

namespace Sys2Proof.Machine

/-- One rising edge with the host's next move. -/
def step (s : State) : Host.Outcome State Fault Refusal := portEdge s.nextInput s.advanceHost

/-- The state in which the host chooses the given word at the next edge, with no command outstanding and no other word
waiting, so that the next step accepts and performs it (log entry 5). -/
def State.withFetchWord (s : State) (nbits w : Nat) : State :=
  { s with port := .idle, host := PortIn.offer (tableWord nbits w) :: s.host, pending := none }

end Sys2Proof.Machine
end

