-- ==== Sys2Proof/Machine/Asm.lean ====
section
/-! DEFINITION. Machine/Asm.lean: the assembler of R50 and the pseudo-instructions of R51, on lists of characters. What R50
leaves open of a line's spacing is log entry 17. -/

namespace Sys2Proof.Machine

/-- The pseudo-instructions (R51). -/
inductive Pseudo where
  | setpoly (p : Word)
  | crcseg (bs : List Byte)
  | crcflat (bs : List Byte)
  deriving DecidableEq, Repr

/-- One segment: CLEAR, a FOLD per byte, FINAL (R51). -/
def segCommands (bs : List Byte) : List Instr := .clear :: (bs.map .fold ++ [.final])

/-- What a pseudo-instruction expands to, in order (R51). -/
def expand : Pseudo → List Instr
  | .setpoly p => [.wrpoly p, .build]
  | .crcseg bs => segCommands bs
  | .crcflat bs => segCommands bs ++ [.rdacc]

/-- Why a line is an assembly error (R50): no word is produced for it. -/
inductive AsmError where
  | unknownMnemonic
  | missingOperand
  | extraOperand
  | badNumber
  | outOfRange
  deriving DecidableEq, Repr

/-- Upper case of a letter: mnemonics are case-insensitive (R50). -/
def upperChar (c : Char) : Char :=
  if 97 ≤ c.toNat ∧ c.toNat ≤ 122 then Char.ofNat (c.toNat - 32) else c

/-- The value of a hexadecimal digit. -/
def hexDigit (c : Char) : Option Nat :=
  let n := c.toNat
  if 48 ≤ n ∧ n ≤ 57 then some (n - 48)
  else if 65 ≤ n ∧ n ≤ 70 then some (n - 55)
  else if 97 ≤ n ∧ n ≤ 102 then some (n - 87)
  else none

/-- The value of a decimal digit. -/
def decDigit (c : Char) : Option Nat :=
  if 48 ≤ c.toNat ∧ c.toNat ≤ 57 then some (c.toNat - 48) else none

/-- The value of a digit string after what stands before it. -/
def digitsFrom (digit : Char → Option Nat) (base : Nat) : Nat → List Char → Option Nat
  | acc, [] => some acc
  | acc, c :: cs =>
    match digit c with
    | some d => digitsFrom digit base (acc * base + d) cs
    | none => none

/-- An operand: hexadecimal after `0x`, else decimal (R50). -/
def parseNumber : List Char → Option Nat
  | [] => none
  | '0' :: x :: c :: cs =>
    if upperChar x = 'X' then digitsFrom hexDigit 16 0 (c :: cs) else digitsFrom decDigit 10 0 ('0' :: x :: c :: cs)
  | c :: cs => digitsFrom decDigit 10 0 (c :: cs)

/-- White space within a line. -/
def isSpace (c : Char) : Bool := c == ' ' || c == '\t' || c == '\r'

/-- A line without the comment that a `;` starts (R50). -/
def dropComment (cs : List Char) : List Char := cs.takeWhile fun c => c != ';'

/-- Without the white space at either end. -/
def trim (cs : List Char) : List Char := ((cs.dropWhile isSpace).reverse.dropWhile isSpace).reverse

/-- The pieces between separators. -/
def splitAt (sep : Char) : List Char → List (List Char)
  | [] => [[]]
  | c :: cs =>
    if c = sep then [] :: splitAt sep cs
    else
      match splitAt sep cs with
      | [] => [[c]]
      | piece :: pieces => (c :: piece) :: pieces

/-- The operands written after a mnemonic, separated by commas; none if nothing stands there. -/
def operandTexts (cs : List Char) : List (List Char) :=
  match trim cs with
  | [] => []
  | rest => (splitAt ',' rest).map trim

/-- Every operand's number, or the error. -/
def parseNumbers : List (List Char) → Except AsmError (List Nat)
  | [] => .ok []
  | t :: ts =>
    match parseNumber t, parseNumbers ts with
    | some n, .ok ns => .ok (n :: ns)
    | none, _ => .error .badNumber
    | _, .error e => .error e

/-- `imm8` is in `0..255` (R50). -/
def imm8Of (n : Nat) : Except AsmError Byte := if n < 256 then .ok (BitVec.ofNat 8 n) else .error .outOfRange

/-- `imm32` is in `0..4294967295` (R50). -/
def imm32Of (n : Nat) : Except AsmError Word :=
  if n < 4294967296 then .ok (BitVec.ofNat 32 n) else .error .outOfRange

/-- Every operand as a byte. -/
def bytesOf : List Nat → Except AsmError (List Byte)
  | [] => .ok []
  | n :: ns =>
    match imm8Of n, bytesOf ns with
    | .ok b, .ok bs => .ok (b :: bs)
    | .error e, _ => .error e
    | _, .error e => .error e

/-- A command without an operand. -/
def noOperand (i : Instr) : List Nat → Except AsmError (List Instr)
  | [] => .ok [i]
  | _ => .error .extraOperand

/-- A command or pseudo-instruction with exactly one operand. -/
def oneOperand (f : Nat → Except AsmError (List Instr)) : List Nat → Except AsmError (List Instr)
  | [] => .error .missingOperand
  | [n] => f n
  | _ => .error .extraOperand

/-- The commands a mnemonic stands for with its operands (R50, R51). The name is in upper case; that a pseudo-instruction's
name may be written in either case, as R50 says of the names of R45 only, is a DESIGN CHOICE (log entry 17). -/
def commandsOf (name : List Char) (ns : List Nat) : Except AsmError (List Instr) :=
  if name = ['N', 'O', 'P'] then noOperand .nop ns
  else if name = ['W', 'R', 'P', 'O', 'L', 'Y'] then oneOperand (fun n => (imm32Of n).map fun v => [.wrpoly v]) ns
  else if name = ['B', 'U', 'I', 'L', 'D'] then noOperand .build ns
  else if name = ['S', 'T', 'A', 'R', 'T'] then noOperand .start ns
  else if name = ['S', 'T', 'O', 'P'] then noOperand .stop ns
  else if name = ['A', 'C', 'K', 'E', 'R', 'R'] then noOperand .ackerr ns
  else if name = ['C', 'L', 'E', 'A', 'R'] then noOperand .clear ns
  else if name = ['F', 'O', 'L', 'D'] then oneOperand (fun n => (imm8Of n).map fun b => [.fold b]) ns
  else if name = ['F', 'I', 'N', 'A', 'L'] then noOperand .final ns
  else if name = ['R', 'D', 'A', 'C', 'C'] then noOperand .rdacc ns
  else if name = ['R', 'D', 'P', 'O', 'L', 'Y'] then noOperand .rdpoly ns
  else if name = ['R', 'D', 'T', 'A', 'B'] then oneOperand (fun n => (imm8Of n).map fun i => [.rdtab i]) ns
  else if name = ['R', 'D', 'S', 'T', 'A', 'T'] then noOperand .rdstat ns
  else if name = ['S', 'E', 'T', 'P', 'O', 'L', 'Y'] then
    oneOperand (fun n => (imm32Of n).map fun v => expand (.setpoly v)) ns
  else if name = ['C', 'R', 'C', 'S', 'E', 'G'] then (bytesOf ns).map fun bs => expand (.crcseg bs)
  else if name = ['C', 'R', 'C', 'F', 'L', 'A', 'T'] then (bytesOf ns).map fun bs => expand (.crcflat bs)
  else .error .unknownMnemonic

/-- One line of assembly (R50, R51): the words it assembles to; a line with only white space or a comment gives none. Its
spacing and the letter case of the names of R51 are log entry 17. -/
def assembleLine (line : List Char) : Except AsmError (List CmdWord) :=
  match trim (dropComment line) with
  | [] => .ok []
  | text =>
    let name := text.takeWhile fun c => !isSpace c
    match parseNumbers (operandTexts (text.drop name.length)) with
    | .ok ns => (commandsOf (name.map upperChar) ns).map fun is => is.map encode
    | .error e => .error e

/-- Every line's words in order, or the first error. DESIGN CHOICE: a line that is an assembly error leaves the whole text
without words; R50 says so of that line only (log entry 24). -/
def assembleLines : List (List Char) → Except AsmError (List CmdWord)
  | [] => .ok []
  | l :: ls =>
    match assembleLine l, assembleLines ls with
    | .ok ws, .ok rest => .ok (ws ++ rest)
    | .error e, _ => .error e
    | _, .error e => .error e

/-- A text, one command per line (R50); what a line in error does to the other lines is log entry 24. -/
def assemble (text : List Char) : Except AsmError (List CmdWord) := assembleLines (splitAt '\n' text)

/-- A hexadecimal digit in upper case. -/
def digitChar (n : Nat) : Char := if n < 10 then Char.ofNat (48 + n) else Char.ofNat (55 + n)

/-- The encoded word as 10 hexadecimal digits, without the `0x` (R50). -/
def hexText (w : CmdWord) : List Char :=
  [9, 8, 7, 6, 5, 4, 3, 2, 1, 0].map fun k => digitChar (w.extractLsb' (4 * k) 4).toNat

end Sys2Proof.Machine
end

