-- ==== Sys2Proof/Machine/Reference.lean ====
section
/-! DEFINITION. Machine/Reference.lean: the host's reference sequences (R71 to R79, R93): which bytes a walk feeds, in which
order, and the commands it issues. They run in the host (R4 (b)); nothing here is state of the block. -/

namespace Sys2Proof.Machine

/-- The geometry of a planar walk (R71). -/
structure Geometry where
  width   : Nat
  height  : Nat
  strideW : Nat
  strideH : Nat
  deriving DecidableEq, Repr

/-- `align(x, n)`, the smallest multiple of `n` that is at least `x`, for `n` at least 1 (R71; log entry 18). -/
def alignUp (x n : Nat) : Nat := (x + (n - 1)) / n * n

/-- The geometry the source resolves from a width and a height (R71). No rule depends on it. -/
def Geometry.aligned (width height : Nat) : Geometry := ⟨width, height, alignUp width 128, alignUp height 32⟩

/-- The offsets of `Y(V)` (R73): pairs of columns, `2*floor(width/2)` bytes a row (C5). -/
def lumaOffsets (g : Geometry) : List Nat :=
  (List.range g.height).flatMap fun row =>
    (List.range (g.width / 2)).flatMap fun pair => [row * g.strideW + 2 * pair, row * g.strideW + 2 * pair + 1]

/-- The columns `0, 2, 4, ...` below the width (R74). -/
def chromaColumns (g : Geometry) : List Nat := (List.range ((g.width + 1) / 2)).map fun k => 2 * k

/-- The offsets of `U(V)` (R74), from the chroma base `stride_w*stride_h` (C6). -/
def chromaUOffsets (g : Geometry) : List Nat :=
  (List.range (g.height / 2)).flatMap fun row =>
    (chromaColumns g).map fun col => g.strideW * g.strideH + row * g.strideW + col

/-- The offsets of `Vc(V)`: those of `U(V)` increased by 1 (R75). -/
def chromaVOffsets (g : Geometry) : List Nat := (chromaUOffsets g).map fun o => o + 1

/-- The bytes of a view at the offsets, in order; none if any offset is out of range (R77). -/
def readView (v : List Byte) : List Nat → Option (List Byte)
  | [] => some []
  | o :: os =>
    match v[o]?, readView v os with
    | some b, some bs => some (b :: bs)
    | _, _ => none

/-- The flat walk (R72): one segment over the whole view in increasing offset order, then RDACC. -/
def flatWalk (v : List Byte) : List Instr := expand (.crcflat v)

/-- The planar walk (R76): three segments, then RDACC; no command if an offset is out of range (R77). -/
def planarWalk (g : Geometry) (v : List Byte) : Option (List Instr) :=
  match readView v (lumaOffsets g), readView v (chromaUOffsets g), readView v (chromaVOffsets g) with
  | some y, some u, some vc => some (segCommands y ++ segCommands u ++ segCommands vc ++ [.rdacc])
  | _, _, _ => none

/-- Option (b) (R79): the accumulator is read after each of the three segments; the combining is the host's own. -/
def planarWalkEach (g : Geometry) (v : List Byte) : Option (List Instr) :=
  match readView v (lumaOffsets g), readView v (chromaUOffsets g), readView v (chromaVOffsets g) with
  | some y, some u, some vc =>
    some (segCommands y ++ [.rdacc] ++ segCommands u ++ [.rdacc] ++ segCommands vc ++ [.rdacc])
  | _, _, _ => none

/-- A frame in arrival order: the walk is fixed by what the buffer holds (R78 (c)). -/
inductive Frame where
  | flat (v : List Byte)
  | planar (g : Geometry) (v : List Byte)
  deriving DecidableEq, Repr

/-- The commands of a frame; none for a frame whose walk leaves the view (R77). -/
def frameCommands : Frame → List Instr
  | .flat v => flatWalk v
  | .planar g v => (planarWalk g v).getD []

/-- How a stream run prepares the table (R78 (a)). -/
inductive Setup where
  /-- The polynomial and the table stay. -/
  | keep
  /-- After reset, with the default polynomial. -/
  | build
  /-- The polynomial changes. -/
  | setpoly (p : Word)
  deriving DecidableEq, Repr

/-- The commands of a preparation (R78 (a)). -/
def setupCommands : Setup → List Instr
  | .keep => []
  | .build => [.build]
  | .setpoly p => expand (.setpoly p)

/-- A stream run (R78): preparation, START, the frames in arrival order, STOP. -/
def streamRun (setup : Setup) (frames : List Frame) : List Instr :=
  setupCommands setup ++ [.start] ++ frames.flatMap frameCommands ++ [.stop]

/-- The reported checksums, each with the host's frame index, which starts at 1 (R78 (c); log entry 19). -/
def numberFrames (reports : List Word) : List (Nat × Word) := (List.range reports.length).zip reports |>.map fun
  | (k, v) => (k + 1, v)

/-- The commands after reset before any checksum can be computed (R93): WRPOLY only for another polynomial, BUILD always,
START if wanted. -/
def bootCommands (p : Option Word) (start : Bool) : List Instr :=
  (match p with
    | some v => [.wrpoly v]
    | none => []) ++ [.build] ++ (if start then [.start] else [])

end Sys2Proof.Machine
end

