-- ==== Sys2Proof/Machine/Run.lean ====
section
/-! DEFINITION. Machine/Run.lean: a run at the command level (R5, R98): commands one at a time, each with its response taken,
and resets in between. -/

namespace Sys2Proof.Machine

/-- One move of a run (R98). -/
inductive RunStep where
  | command (w : CmdWord)
  | reset
  deriving DecidableEq, Repr

/-- One command and its response taken: the atomic step of R5. -/
def transact (w : CmdWord) (s : State) : Answer := onNext State.takeResponse (command w s)

/-- One move of a run; a reset discards an outstanding command (R92). -/
def runStep (r : RunStep) (s : State) : Answer :=
  match r with
  | .command w => transact w s
  | .reset => .next (resetEdge s)

/-- A run: its moves in order (R37, R98). -/
def run : List RunStep → State → Answer
  | [], s => .next s
  | r :: rs, s => andThen (runStep r s) (run rs)

/-- The moves of a list of commands. -/
def commandRun (is : List Instr) : List RunStep := is.map fun i => .command (encode i)

/-- The observation of a run: its responses and the state record at its end (R98). DESIGN CHOICE: of a run whose last moves
are resets the record is the one after them (log entry 23). -/
def observe (s : State) : List Response × Block := (s.taken, s.block)

/-- Whether every command of a list is accepted from a state: when a pseudo-instruction succeeds (R51). -/
def allAccepted (is : List Instr) (s : State) : Bool :=
  match run (commandRun is) { s with taken := [] } with
  | .next t => t.taken.all fun r => r.ok
  | _ => false

end Sys2Proof.Machine
end

