-- ==== Sys2Proof/Safety.lean ====
section
/-! DEFINITION. Safety.lean: the invariants of the record and the port that claims are stated with (R17, R21, R23, R48), the
word a host comes to wait with, and the rejection matrix (R82). -/

namespace Sys2Proof.Machine

/-- What every reachable state record satisfies. -/
structure Block.Inv (b : Block) : Prop where
  /-- The table storage is in its canonical form (log entry 2). -/
  tableCanonical : b.table.wf = true
  /-- R17: a valid table holds `build_table(POLY)` at every index. -/
  tableMatches : b.tableValid = true → ∀ i, tableRead b.table i = buildTable b.poly i
  /-- R23: an active block has a valid table. -/
  activeHasTable : b.active = true → b.tableValid = true
  /-- R21: the codes 5 to 15 are never written. -/
  codeLegal : b.errCode.toNat ≤ 4
  /-- R81: the code is `NONE` exactly when no rejection stands since the last reset or ACKERR. -/
  errIffCode : b.err = true ↔ b.errCode ≠ 0#4

/-- A response that is not ok carries the zero-extension of a rejection code (R48). -/
def Response.Legal (r : Response) : Prop := r.ok = false → ∃ c : RejectCode, r.data = zextCode c.code

/-- What every reachable state satisfies. -/
structure State.Inv (s : State) : Prop where
  block : s.block.Inv
  /-- Every response taken is one of R48. -/
  takenLegal : ∀ r ∈ s.taken, r.Legal
  /-- So is the outstanding one. -/
  portLegal : ∀ n r, s.port = .outstanding n r → r.Legal
  /-- A rejection whose response is outstanding shows in `ERR` and `ERRCODE` (R80). -/
  portError : ∀ n r, s.port = .outstanding n r → r.ok = false → s.block.err = true ∧ r.data = zextCode s.block.errCode

/-- The number of commands accepted whose response the host has not taken: 0 or 1 (R42 (b)). -/
def Port.count : Port → Nat
  | .idle => 0
  | .outstanding _ _ => 1

/-- The word a host with none waiting comes to wait with over the moves `l`: the first one it chooses there (log entry 15). -/
def firstChosen (l : List PortIn) : Option CmdWord := l.findSome? fun i => i.cmd

/-- What a decoded command is rejected for, and when it is not (R82, the columns after decoding). -/
def rejection (i : Instr) (b : Block) : Option RejectCode :=
  match i with
  | .wrpoly _ | .build => if b.active then some .cfgActive else none
  | .start => if b.active then some .badTransition else if b.tableValid then none else some .noTable
  | .stop => if b.active then none else some .badTransition
  | .fold _ | .rdtab _ => if b.tableValid then none else some .noTable
  | .nop | .ackerr | .clear | .final | .rdacc | .rdpoly | .rdstat => none

/-- The state after a command that leaves the record `b` and answers `r`: nothing else changes, and the response is
outstanding. -/
def State.answered (s : State) (b : Block) (r : Response) : State := { s with block := b, port := .outstanding 0 r }

/-- The state after a rejection (R80). -/
def State.rejected (s : State) (c : RejectCode) : State :=
  s.answered { s.block with err := true, errCode := c.code } ⟨false, zextCode c.code⟩

/-- Two records that no command can tell apart (R15, R17): every register is equal, and the tables are where they are valid. -/
structure Block.Alike (a b : Block) : Prop where
  poly : a.poly = b.poly
  tableValid : a.tableValid = b.tableValid
  acc : a.acc = b.acc
  active : a.active = b.active
  err : a.err = b.err
  errCode : a.errCode = b.errCode
  table : a.tableValid = true → ∀ i, tableRead a.table i = tableRead b.table i

end Sys2Proof.Machine
end

