-- ==== Sys2Proof/Certificates/Slice0/Obligations.lean ====
section
/-! DEFINITION. Certificates/Slice0/Obligations.lean: the statements about the model, each from the numbered rules of spec/. -/

open Sys2Proof Sys2Proof.Machine

/-! ## The commands, one statement each -/

/-- R59: the all-zero word is NOP; it answers `(1, 0)` and changes no state; a non-zero operand makes the word illegal. -/
def Obligations.NopDoesNothing : Prop := ∀ s : State,
  encode .nop = 0x0000000000#40 ∧
  exec .nop s = .next (s.answered s.block ⟨true, 0#32⟩) ∧
  ∀ operand : Word, operand ≠ 0#32 → command (0x00#8 ++ operand) s = .next (s.rejected .illegalCmd)

/-- R54: WRPOLY while idle writes POLY and clears TABLE_VALID exactly when the value changes; while active it is rejected
with `CFG_ACTIVE`. -/
def Obligations.WrpolyWritesPolynomial : Prop := ∀ (p : Word) (s : State),
  encode (.wrpoly p) = 0x01#8 ++ p ∧
  (s.block.active = false →
    exec (.wrpoly p) s = .next (s.answered
      { s.block with poly := p, tableValid := if p = s.block.poly then s.block.tableValid else false } ⟨true, 0#32⟩)) ∧
  (s.block.active = true → exec (.wrpoly p) s = .next (s.rejected .cfgActive))

/-- R55: BUILD while idle makes TABLE `build_table(POLY)` at all 256 indices and sets TABLE_VALID, touching nothing else;
rebuilding a valid table rewrites identical entries; while active BUILD is rejected with `CFG_ACTIVE`. The table clauses
hold of a table storage in the model's canonical form (Memory.wf, log entry 2; every step keeps it: StepKeepsInvariant). -/
def Obligations.BuildBuildsTable : Prop := ∀ s : State,
  encode .build = 0x0200000000#40 ∧
  (s.block.active = false → ∃ m : Memory,
    exec .build s = .next (s.answered { s.block with table := m, tableValid := true } ⟨true, 0#32⟩) ∧
    (s.block.table.wf = true → ∀ i : Byte, tableRead m i = buildTable s.block.poly i) ∧
    (s.block.Inv → s.block.tableValid = true → m = s.block.table)) ∧
  (s.block.active = true → exec .build s = .next (s.rejected .cfgActive))

/-- R56: START from idle with a valid table zeroes ACC and enters active mode; it is rejected with `BAD_TRANSITION` when
active, else with `NO_TABLE` when the table is not valid; until STOP the block then stays active with a valid table. -/
def Obligations.StartEntersActive : Prop := ∀ s : State,
  encode .start = 0x0300000000#40 ∧
  (s.block.active = false → s.block.tableValid = true →
    exec .start s = .next (s.answered { s.block with acc := 0#32, active := true } ⟨true, 0#32⟩)) ∧
  (s.block.active = true → exec .start s = .next (s.rejected .badTransition)) ∧
  (s.block.active = false → s.block.tableValid = false → exec .start s = .next (s.rejected .noTable)) ∧
  ∀ (i : Instr) (t : State), s.block.active = true → s.block.tableValid = true → i ≠ .stop → exec i s = .next t →
    t.block.active = true ∧ t.block.tableValid = true

/-- R57: STOP while active enters idle mode and keeps everything else; while idle it is rejected with `BAD_TRANSITION`. -/
def Obligations.StopEntersIdle : Prop := ∀ s : State,
  encode .stop = 0x0400000000#40 ∧
  (s.block.active = true → exec .stop s = .next (s.answered { s.block with active := false } ⟨true, 0#32⟩)) ∧
  (s.block.active = false → exec .stop s = .next (s.rejected .badTransition))

/-- R58: ACKERR clears ERR and ERRCODE; with no error pending it is a no-operation; with a non-zero operand the word is
illegal. -/
def Obligations.AckerrClearsErrors : Prop := ∀ s : State,
  encode .ackerr = 0x0500000000#40 ∧
  exec .ackerr s = .next (s.answered { s.block with err := false, errCode := 0#4 } ⟨true, 0#32⟩) ∧
  (s.block.Inv → s.block.err = false → exec .ackerr s = .next (s.answered s.block ⟨true, 0#32⟩)) ∧
  ∀ operand : Word, operand ≠ 0#32 → command (0x05#8 ++ operand) s = .next (s.rejected .illegalCmd)

/-- R61: CLEAR sets ACC to 0 in every mode, with or without a table. -/
def Obligations.ClearZeroesAccumulator : Prop := ∀ s : State,
  encode .clear = 0x1000000000#40 ∧
  exec .clear s = .next (s.answered { s.block with acc := 0#32 } ⟨true, 0#32⟩)

/-- R62: FOLD with a valid table folds one byte into ACC, in both modes; without one it is rejected with `NO_TABLE`; the
corner cases hold in every state that satisfies the block's invariant. -/
def Obligations.FoldFoldsOneByte : Prop := ∀ (b : Byte) (s : State),
  encode (.fold b) = 0x11000000#32 ++ b ∧
  (s.block.tableValid = true →
    exec (.fold b) s = .next (s.answered
      { s.block with
        acc := (s.block.acc <<< 8) ^^^
          tableRead s.block.table ((((s.block.acc >>> 24) ^^^ b.setWidth 32) &&& 0xFF#32).setWidth 8) } ⟨true, 0#32⟩)) ∧
  (s.block.tableValid = false → exec (.fold b) s = .next (s.rejected .noTable)) ∧
  (s.block.Inv → s.block.active = true → ∃ a, exec (.fold b) s = .next (s.answered { s.block with acc := a } ⟨true, 0#32⟩)) ∧
  (s.block.Inv → s.block.tableValid = true → s.block.acc.extractLsb' 24 8 = b →
    exec (.fold b) s = .next (s.answered { s.block with acc := s.block.acc <<< 8 } ⟨true, 0#32⟩)) ∧
  (s.block.Inv → s.block.tableValid = true → s.block.poly = 0x04C11DB7#32 → s.block.acc = 0xFFFFFFFF#32 → b = 0x00#8 →
    exec (.fold b) s = .next (s.answered { s.block with acc := 0x4E08BFB4#32 } ⟨true, 0#32⟩))

/-- R63: FINAL complements ACC in every mode, with or without a table; twice in a row it restores ACC. -/
def Obligations.FinalComplementsAccumulator : Prop := ∀ s : State,
  encode .final = 0x1200000000#40 ∧
  exec .final s = .next (s.answered { s.block with acc := ~~~ s.block.acc } ⟨true, 0#32⟩) ∧
  ∀ (t u : State), exec .final s = .next t → exec .final t = .next u → u.block = s.block

/-- R67: RDACC returns ACC and changes nothing. -/
def Obligations.RdaccReturnsAccumulator : Prop := ∀ s : State,
  encode .rdacc = 0x2000000000#40 ∧ exec .rdacc s = .next (s.answered s.block ⟨true, s.block.acc⟩)

/-- R68: RDPOLY returns POLY, built or not, and changes nothing. -/
def Obligations.RdpolyReturnsPolynomial : Prop := ∀ s : State,
  encode .rdpoly = 0x2100000000#40 ∧ exec .rdpoly s = .next (s.answered s.block ⟨true, s.block.poly⟩)

/-- R69: RDTAB returns the entry at every index of a valid table, 0 at index 0 and POLY at index 1 (R53); without a valid
table it is rejected with `NO_TABLE`. -/
def Obligations.RdtabReturnsEntry : Prop := ∀ (i : Byte) (s : State),
  encode (.rdtab i) = 0x22000000#32 ++ i ∧
  (s.block.tableValid = true →
    exec (.rdtab i) s = .next (s.answered s.block ⟨true, tableRead s.block.table i⟩)) ∧
  (s.block.tableValid = false → exec (.rdtab i) s = .next (s.rejected .noTable)) ∧
  (s.block.Inv → s.block.tableValid = true → i = 0x00#8 →
    exec (.rdtab i) s = .next (s.answered s.block ⟨true, 0#32⟩)) ∧
  (s.block.Inv → s.block.tableValid = true → i = 0x01#8 →
    exec (.rdtab i) s = .next (s.answered s.block ⟨true, s.block.poly⟩))

/-- R70: RDSTAT returns the status word and does not clear ERR; the word's values at reset, while active without error,
and after a FOLD rejected in idle with no table. -/
def Obligations.RdstatReturnsStatus : Prop := ∀ s : State,
  encode .rdstat = 0x2300000000#40 ∧
  exec .rdstat s = .next (s.answered s.block ⟨true, statusWord s.block⟩) ∧
  (s.block = Block.reset → statusWord s.block = 0x00000000#32) ∧
  (s.block.tableValid = true → s.block.active = true → s.block.err = false → s.block.errCode = 0#4 →
    statusWord s.block = 0x00000003#32) ∧
  (s.block.tableValid = false → s.block.active = false → s.block.err = true → s.block.errCode = 4#4 →
    statusWord s.block = 0x00000044#32)

/-! ## State and flags -/

/-- R22: bit by bit, the status word is TABLE_VALID, ACTIVE, ERR, a zero, ERRCODE in 7:4, and zeros above. -/
def Obligations.StatusWordLayout : Prop := ∀ b : Block,
  (statusWord b).getLsbD 0 = b.tableValid ∧ (statusWord b).getLsbD 1 = b.active ∧ (statusWord b).getLsbD 2 = b.err ∧
  (statusWord b).getLsbD 3 = false ∧ (statusWord b).extractLsb' 4 4 = b.errCode ∧
  (statusWord b).extractLsb' 8 24 = 0#24

/-- The frame of every command (R14 to R21, R25): each register is unchanged by every command its rule does not name; a
rejected command changes ERR and ERRCODE only; no command touches the host's moves, the word it waits with or the responses it
holds. -/
def Obligations.RegistersKeptByOtherCommands : Prop := ∀ (i : Instr) (s t : State), exec i s = .next t →
  ((∀ p, i ≠ .wrpoly p) → t.block.poly = s.block.poly) ∧
  (i ≠ .build → ∀ k : Byte, tableRead t.block.table k = tableRead s.block.table k) ∧
  (i ≠ .build → (∀ p, i ≠ .wrpoly p) → t.block.tableValid = s.block.tableValid) ∧
  (i ≠ .clear → i ≠ .start → i ≠ .final → (∀ b, i ≠ .fold b) → t.block.acc = s.block.acc) ∧
  (i ≠ .start → i ≠ .stop → t.block.active = s.block.active) ∧
  (i ≠ .ackerr → rejection i s.block = none → t.block.err = s.block.err ∧ t.block.errCode = s.block.errCode) ∧
  (∀ c, rejection i s.block = some c → t.block = { s.block with err := true, errCode := c.code }) ∧
  t.host = s.host ∧ t.pending = s.pending ∧ t.taken = s.taken

/-- R80: a rejection writes ERR and ERRCODE, answers `(0, zext_32(code))` and changes no other state; the port then accepts the
next command as after any accepted command, never blocked; a word that does not decode is rejected so. -/
def Obligations.RejectionIsPrecise : Prop := ∀ (c : RejectCode) (s : State),
  reject c s = .next { s with
    block := { s.block with err := true, errCode := c.code }, port := .outstanding 0 ⟨false, c.code.setWidth 32⟩ } ∧
  (∀ w e, decode w = .error e → command w s = reject .illegalCmd s) ∧
  (∀ i, rejection i s.block = some c → exec i s = reject c s) ∧
  (∀ v t u n, reject c s = .next t → respond v s = .next u →
    cmdReady t.takeResponse n = cmdReady u.takeResponse n ∧ ∀ w, ∃ t', command w t.takeResponse = .next t')

/-- R82: each decoded command is rejected with exactly the code and in exactly the condition of the matrix, and otherwise
accepted; and a word of a defined opcode is illegal exactly when its operand breaks its form. -/
def Obligations.RejectionMatrixHolds : Prop :=
  (∀ (i : Instr) (s : State) (c : RejectCode), rejection i s.block = some c → exec i s = .next (s.rejected c)) ∧
  (∀ (i : Instr) (s : State), rejection i s.block = none → ∃ b v, exec i s = .next (s.answered b ⟨true, v⟩)) ∧
  (∀ (i : Instr) (s : State), rejection i s.block ≠ some .illegalCmd) ∧
  ∀ (i : Instr) (operand : Word),
    (∃ e, decode (i.opcode ++ operand) = .error e) ↔
      match i.form with
      | .none => operand ≠ 0#32
      | .imm8 => operand.extractLsb' 8 24 ≠ 0#24
      | .imm32 => False

/-- R86: idle is the mode after reset; an accepted START enters active mode and an accepted STOP enters idle mode, and no
other command changes the mode (reset aside); each command is accepted in each mode exactly when the table of modes says
so, and rejected with the code the table gives, in every state that satisfies the block's invariant. No state is kept per
mode: STOP changes nothing else, and START changes nothing but ACC besides. -/
def Obligations.ModesChangeByStartAndStopOnly : Prop :=
  Block.reset.active = false ∧
  (∀ (i : Instr) (s t : State), exec i s = .next t → s.block.active = false → t.block.active = true → i = .start) ∧
  (∀ (i : Instr) (s t : State), exec i s = .next t → s.block.active = true → t.block.active = false → i = .stop) ∧
  (∀ s : State, s.block.active = false → s.block.tableValid = true →
    exec .start s = .next (s.answered { s.block with active := true, acc := 0#32 } ⟨true, 0#32⟩)) ∧
  (∀ s : State, s.block.active = true →
    exec .stop s = .next (s.answered { s.block with active := false } ⟨true, 0#32⟩)) ∧
  (∀ (i : Instr) (s : State), s.block.Inv → s.block.active = false → ∃ b r, exec i s = .next (s.answered b r) ∧
    match i with
    | .stop => r = ⟨false, 0x00000003#32⟩
    | .start | .fold _ | .rdtab _ => r.ok = s.block.tableValid
    | .wrpoly _ | .build | .nop | .ackerr | .clear | .final | .rdacc | .rdpoly | .rdstat => r.ok = true) ∧
  ∀ (i : Instr) (s : State), s.block.Inv → s.block.active = true → ∃ b r, exec i s = .next (s.answered b r) ∧
    match i with
    | .wrpoly _ | .build => r = ⟨false, 0x00000002#32⟩
    | .start => r = ⟨false, 0x00000003#32⟩
    | .stop | .fold _ | .rdtab _ | .nop | .ackerr | .clear | .final | .rdacc | .rdpoly | .rdstat => r.ok = true

/-- R48: every 40-bit word answers one response: `(1, the value read)` from an accepted read, `(1, 0)` from any other accepted
command, `(0, zext_32(code))` from a rejected one, which a word that does not decode is with `ILLEGAL_CMD`. -/
def Obligations.EveryCommandAnswersOnce : Prop :=
  (∀ (i : Instr) (s : State), ∃ t r, exec i s = .next t ∧ t.port = .outstanding 0 r ∧
    r = match rejection i s.block with
      | some c => ⟨false, c.code.setWidth 32⟩
      | none => ⟨true, match i with
        | .rdacc => s.block.acc
        | .rdpoly => s.block.poly
        | .rdtab k => tableRead s.block.table k
        | .rdstat => statusWord s.block
        | .nop | .wrpoly _ | .build | .start | .stop | .ackerr | .clear | .fold _ | .final => 0#32⟩) ∧
  (∀ (w : CmdWord) (i : Instr) (s : State), decode w = .ok i → command w s = exec i s) ∧
  ∀ (w : CmdWord) (e : DecodeError) (s : State), decode w = .error e →
    ∃ t, command w s = .next t ∧ t.port = .outstanding 0 ⟨false, 0x00000001#32⟩

/-- R35 (e): an accepted read changes no state of the block, and repeated at once it returns the same value. -/
def Obligations.ReadsRepeat : Prop := ∀ (i : Instr) (s : State),
  (i = .rdacc ∨ i = .rdpoly ∨ (∃ k, i = .rdtab k) ∨ i = .rdstat) → rejection i s.block = none →
  ∃ v, exec i s = .next (s.answered s.block ⟨true, v⟩) ∧
    ∀ t, t.block = s.block → exec i t = .next (t.answered t.block ⟨true, v⟩)

/-- R85: a second rejection before ACKERR keeps ERR set and overwrites ERRCODE; ACKERR clears both. -/
def Obligations.LaterRejectionOverwritesCode : Prop := ∀ (c d : RejectCode) (s t u : State),
  reject c s = .next t → reject d t = .next u →
  u.block = { s.block with err := true, errCode := d.code } ∧
  exec .ackerr u = .next (u.answered { s.block with err := false, errCode := 0#4 } ⟨true, 0#32⟩)

/-- R15, R17, R26 (c): no command tells two records apart that differ only in a table that is not valid (or hold equal valid
tables differently): the responses are equal, and the records stay indistinguishable. -/
def Obligations.InvalidTableIsUnobservable : Prop := ∀ (i : Instr) (s t : State),
  s.block.Alike t.block → s.block.table.wf = true → t.block.table.wf = true →
  ∃ s' t', exec i s = .next s' ∧ exec i t = .next t' ∧ s'.port = t'.port ∧ s'.block.Alike t'.block

/-! ## Encoding -/

/-- Every command's word decodes to that command (R43 to R46): no bit of an operand is dropped. -/
def Obligations.DecodeOfEncode : Prop := ∀ i : Instr, decode (encode i) = .ok i

/-- Every word that decodes is the word of the command it decodes to: each command has one word per operand (R46, R49). -/
def Obligations.EncodeOfDecode : Prop := ∀ (w : CmdWord) (i : Instr), decode w = .ok i → encode i = w

/-- R46: decoding is the match and mask table: a word decodes to the command of the row it matches; at most one row matches;
a word no row matches is rejected with `ILLEGAL_CMD`. -/
def Obligations.DecodeIsMatchAndMask : Prop := ∀ w : CmdWord,
  (∀ r ∈ opTable, r.accepts w = true → decode w = .ok (r.toInstr (operandField w))) ∧
  opTable.Pairwise (fun a b => ¬ (a.accepts w = true ∧ b.accepts w = true)) ∧
  ((∀ r ∈ opTable, r.accepts w = false) →
    (∃ e, decode w = .error e) ∧ ∀ s, command w s = .next (s.rejected .illegalCmd))

/-- R47: the 243 reserved opcodes are rejected with `ILLEGAL_CMD` whatever the operand bits. -/
def Obligations.ReservedOpcodesRejected : Prop :=
  (∀ (w : CmdWord) (s : State),
    (0x06 ≤ (opField w).toNat ∧ (opField w).toNat ≤ 0x0F) ∨ (0x13 ≤ (opField w).toNat ∧ (opField w).toNat ≤ 0x1F) ∨
      0x24 ≤ (opField w).toNat →
    decode w = .error (.reservedOpcode (opField w)) ∧ command w s = .next (s.rejected .illegalCmd)) ∧
  (∀ (w : CmdWord) (op : Byte), decode w = .error (.reservedOpcode op) →
    (0x06 ≤ op.toNat ∧ op.toNat ≤ 0x0F) ∨ (0x13 ≤ op.toNat ∧ op.toNat ≤ 0x1F) ∨ 0x24 ≤ op.toNat)

/-- Words written out from the encodings of R43 to R46, one of each family, and two illegal ones (DV-DEC). -/
def Obligations.SpecWordsDecode : Prop :=
  decode 0x0000000000#40 = .ok .nop ∧ decode 0x011EDC6F41#40 = .ok (.wrpoly 0x1EDC6F41#32) ∧
  decode 0x110000005A#40 = .ok (.fold 0x5A#8) ∧ decode 0x2200000080#40 = .ok (.rdtab 0x80#8) ∧
  decode 0x2300000000#40 = .ok .rdstat ∧ decode 0x4200000000#40 = .error (.reservedOpcode 0x42#8) ∧
  decode 0x1100000100#40 = .error (.operandBits 0x11#8 0x00000100#32)

/-! ## The CRC functions -/

/-- R53: entry 0 is 0 and entry 1 is the polynomial; the table is linear in the index; polynomial 0 gives an all-zero
table; and the entries the rule lists for the default polynomial. -/
def Obligations.BuildTableLaws : Prop :=
  (∀ p, buildTable p 0x00#8 = 0#32) ∧
  (∀ p, buildTable p 0x01#8 = p) ∧
  (∀ p i j, buildTable p (i ^^^ j) = buildTable p i ^^^ buildTable p j) ∧
  (∀ i, buildTable 0#32 i = 0#32) ∧
  buildTable 0x04C11DB7#32 0x02#8 = 0x09823B6E#32 ∧ buildTable 0x04C11DB7#32 0x03#8 = 0x0D4326D9#32 ∧
  buildTable 0x04C11DB7#32 0x40#8 = 0x34867077#32 ∧ buildTable 0x04C11DB7#32 0x80#8 = 0x690CE0EE#32 ∧
  buildTable 0x04C11DB7#32 0xFF#8 = 0xB1F740B4#32

/-- R60: the fold's index is `a[31:24] XOR b`, by either of the source's spellings, and the fold is
`(a << 8) XOR T[index]`. -/
def Obligations.FoldIndexIsTopByteXorInput : Prop := ∀ (a : Word) (b : Byte) (T : Byte → Word),
  (((a >>> 24) ^^^ b.setWidth 32) &&& 0xFF#32).setWidth 8 = a.extractLsb' 24 8 ^^^ b ∧
  (((a >>> 24) ^^^ (b.setWidth 32 &&& 0xFF#32))).setWidth 8 = a.extractLsb' 24 8 ^^^ b ∧
  fold a b T = (a <<< 8) ^^^ T (a.extractLsb' 24 8 ^^^ b)

/-- R65: a fold through the built table equals eight bit-serial rounds. -/
def Obligations.FoldIsEightBitSerialRounds : Prop := ∀ (p a : Word) (b : Byte),
  fold a b (buildTable p) = bitSerialFold p a b

/-- R66: the laws of the segment function. -/
def Obligations.SegmentLaws : Prop :=
  (∀ p, crcSeg p [] = 0xFFFFFFFF#32) ∧
  (∀ p n bs, crcSeg p (List.replicate n 0x00#8 ++ bs) = crcSeg p bs) ∧
  (∀ bs, crcSeg 0#32 bs = 0xFFFFFFFF#32) ∧
  (∀ p (x y : List Byte), x.length = y.length →
    crcSeg p (List.zipWith (· ^^^ ·) x y) = crcSeg p x ^^^ crcSeg p y ^^^ 0xFFFFFFFF#32) ∧
  crcSeg 0x04C11DB7#32 [0x00#8, 0x01#8, 0x02#8, 0x03#8] = 0x5396EBAE#32 ∧
  crcSeg 0x04C11DB7#32 [0x03#8, 0x02#8, 0x01#8, 0x00#8] = 0x4E20D543#32

/-- R65: from any state whose table is valid, `CLEAR; FOLD b0; ...; FINAL` is accepted at every command and leaves
`crc_seg(POLY, bs)` in ACC and everything else of the record as it was. -/
def Obligations.SegmentRunComputesCrcSeg : Prop := ∀ (s : State) (bs : List Byte),
  s.block.Inv → s.block.tableValid = true →
  run (commandRun (segCommands bs)) s = .next { s with
    block := { s.block with acc := crcSeg s.block.poly bs }
    port := .idle
    taken := s.taken ++ List.replicate (bs.length + 2) ⟨true, 0#32⟩ }

/-! ## Invariants and the machine's step -/

/-- The state after reset satisfies the invariant (R13, R17, R21, R23); that its table storage lists nothing is the model's
choice (log entry 1). -/
def Obligations.ResetSatisfiesInvariant : Prop := State.reset.Inv

/-- Every step keeps the invariant: R17, R21, R23, R48, R80's tie between an outstanding rejection and ERR and ERRCODE, and the
canonical form of the table storage, which is the model's own (log entry 2). -/
def Obligations.StepKeepsInvariant : Prop := ∀ s t : State, s.Inv → step s = .next t → t.Inv

/-- The machine never stops: every state has a next state, whatever the host does (R80, R97). -/
def Obligations.StepAlwaysAnswers : Prop := ∀ s : State, ∃ t, step s = .next t

/-- A step at an edge at which the host has a word that decodes, waiting or just chosen, with no command outstanding and no
reset, so that it offers that word (R99), is exec of that command on the state with the host's list moved on and the word accepted, the response then waiting the
command's latency (R42, R46). That a step is one edge (log entry 3), how a latency is counted (log entry 6), that the word
is accepted at this very edge (log entry 7) and that its effects land there (log entry 8) are the model's. -/
def Obligations.StepRunsDecodedCommand : Prop := ∀ (s : State) (j : PortIn) (rest : List PortIn) (w : CmdWord) (i : Instr),
  s.host = j :: rest → j.rstN = true → s.pending.or j.cmd = some w → s.port = .idle → decode w = .ok i →
  step s = onNext (State.holdResponse (waitEdges w)) (exec i { s with host := rest, pending := none })

/-- A step at such an edge whose word does not decode rejects it with `ILLEGAL_CMD` (R46, R80). That a step is one edge (log
entry 3), that the answer waits `LAT_CMD` (log entry 6), that the word is accepted at this very edge (log entry 7) and that
ERR and ERRCODE are written there (log entry 8) are the model's. -/
def Obligations.StepRejectsIllegalWord : Prop := ∀ (s : State) (j : PortIn) (rest : List PortIn) (w : CmdWord) (e : DecodeError),
  s.host = j :: rest → j.rstN = true → s.pending.or j.cmd = some w → s.port = .idle → decode w = .error e →
  step s = .next { s with
    block := { s.block with err := true, errCode := 1#4 }
    port := .outstanding Config.latCmdExtra ⟨false, 0x00000001#32⟩
    host := rest
    pending := none }

/-- R92: a reset edge in any state, with or without a command outstanding or offered, gives every register its reset value
and abandons the outstanding command without a response; while `rst_n` is 0 the port offers nothing and accepts
nothing. No word is offered at it (R92 (b), R99), and the one the host has at hand waits on (log entry 15). The table's contents after
reset are the model's choice (log entry 1) and not claimed here. -/
def Obligations.ResetEdgeRestoresRecord : Prop := ∀ s : State,
  cmdReady s false = false ∧ cmdOffered s false = none ∧ rspOffered s false = none ∧
  (s.nextInput.rstN = false → ∃ t, step s = .next t ∧
    t.block.poly = 0x04C11DB7#32 ∧ t.block.tableValid = false ∧ t.block.acc = 0#32 ∧ t.block.active = false ∧
    t.block.err = false ∧ t.block.errCode = 0#4 ∧ statusWord t.block = 0#32 ∧
    t.port = .idle ∧ t.taken = s.taken ∧ t.host = s.host.tail ∧ s.offered = none ∧
    t.pending = s.chosen)

/-- R9, R42 (e): between the edge that accepts a word and the first edge its response can be taken at lie `LAT_BUILD` cycles for
BUILD and `LAT_CMD` for any other word, each at least 1 (how the cycles are counted is log entry 6). -/
def Obligations.LatencyOfEachWord : Prop :=
  1 ≤ Config.latBuild ∧ 1 ≤ Config.latCmd ∧
  (∀ w, decode w = .ok .build → waitEdges w + 1 = Config.latBuild) ∧
  (∀ w, decode w ≠ .ok .build → waitEdges w + 1 = Config.latCmd) ∧
  ∀ (s t : State) (w : CmdWord), accept w s = .next t → ∃ r, t.port = .outstanding (waitEdges w) r

/-- R42 (a), (b), (d): outside reset an edge accepts a command exactly when one is offered and `cmd_ready` is 1, and each
accepted command is answered by exactly one response: accepted = taken + outstanding, at every edge; a response is taken
exactly when it is offered and the host is ready, and the ones taken before stay. -/
def Obligations.EveryAcceptedCommandOneResponse : Prop := ∀ s t : State,
  s.nextInput.rstN = true → step s = .next t →
  t.taken.length + t.port.count = s.taken.length + s.port.count +
    (if cmdReady s true = true ∧ s.offered.isSome = true then 1 else 0) ∧
  t.taken = s.taken ++ (match rspOffered s true with
    | some r => if s.nextInput.rspReady then [r] else []
    | none => [])

/-- R42 (c): an offered response the host does not take stays offered, unchanged, and nothing else happens: only the host's own
moves go on. -/
def Obligations.OfferedResponseStays : Prop := ∀ (s : State) (r : Response),
  rspOffered s true = some r → s.nextInput.rstN = true → s.nextInput.rspReady = false →
  step s = .next s.advanceHost ∧ rspOffered s.advanceHost true = some r

/-- R97: from acceptance on, the response is taken after exactly the edges left to wait plus one, if the host is ready (how
the edges are counted is log entry 6); a word the host chooses meanwhile is not offered and
waits (R99, log entry 15). -/
def Obligations.OutstandingResponseArrives : Prop := ∀ (s : State) (n : Nat) (r : Response) (l rest : List PortIn),
  s.port = .outstanding n r → s.host = l ++ rest → l.length = n + 1 → (∀ i ∈ l, i.rstN = true ∧ i.rspReady = true) →
  Host.Core.run core (n + 1) s = .next { s with
    port := .idle, host := rest, pending := s.pending.or (firstChosen l), taken := s.taken ++ [r] }

/-- R42 (b), R95, R99: a word the host has chosen while a command is outstanding waits, whatever the host's list says, is not
offered or accepted before that command's response is taken (that it waits is log entry 15), and is accepted, once, at the edge after (that
`cmd_ready` rises at once is the model's choice, log entry 7; that a step is one edge, log entry 3). -/
def Obligations.HeldOfferAcceptedAfterResponse : Prop :=
  ∀ (s : State) (n : Nat) (r : Response) (w : CmdWord) (l rest : List PortIn) (last : PortIn),
  s.port = .outstanding n r → s.pending = some w → s.host = l ++ last :: rest → l.length = n + 1 →
  (∀ i ∈ l, i.rstN = true ∧ i.rspReady = true) → last.rstN = true →
  Host.Core.run core (n + 2) s = accept w { s with port := .idle, host := rest, pending := none, taken := s.taken ++ [r] }

/-- R95, R99: the host has no move outside the table of R99. It offers a word (`cmd_valid = 1`) at no edge at which `cmd_ready` is
0, so neither while a command is outstanding nor at a reset edge; an offered word is accepted unchanged at the edge that
offers it, so it cannot be changed or withdrawn before; and the word it has chosen meanwhile waits (log entry 15). That
`cmd_ready` is 1 whenever nothing is outstanding is log entry 7. -/
def Obligations.OfferHeldUntilAccepted : Prop := ∀ s t : State, step s = .next t →
  (cmdReady s s.nextInput.rstN = false → s.offered = none ∧ t.pending = s.chosen) ∧
  (cmdReady s s.nextInput.rstN = true → s.offered = s.chosen ∧ t.pending = none) ∧
  (∀ w, s.offered = some w → cmdReady s s.nextInput.rstN = true ∧
    accept w { s with host := s.host.tail, pending := none } = .next t) ∧
  (∀ n r, s.port = .outstanding n r → s.offered = none) ∧
  (∀ w, s.pending = some w → s.chosen = some w)

/-- R5, R42: the port realises the command level: a word offered to a port with no command outstanding, whose response the
host takes any number of edges after it is offered, is exactly the command level's one atomic step with its response; the
host's moves meanwhile are any without a reset, and a word it chooses meanwhile is not offered and waits (R99, log entry 15). That an edge is
a step (log entry 3), the count of edges (log entry 6) and acceptance at the first edge (log entry 7) are the model's. -/
def Obligations.PortRealisesAtomicCommand : Prop :=
  ∀ (s : State) (w : CmdWord) (first last : PortIn) (wait delay rest : List PortIn),
  s.port = .idle → s.pending.or first.cmd = some w → s.host = first :: (wait ++ delay ++ last :: rest) →
  wait.length = waitEdges w → (∀ i ∈ first :: last :: (wait ++ delay), i.rstN = true) →
  (∀ i ∈ delay, i.rspReady = false) → last.rspReady = true →
  Host.Core.run core (waitEdges w + delay.length + 2) s =
    transact w { s with host := rest, pending := firstChosen (wait ++ delay ++ [last]) }

/-! ## Runs, hazards and the reference sequences -/

/-- R37: commands take effect one at a time, in order: after two commands the record is that of the second performed on the
record the first left, each answers once, in that order, and the first one's answer is that of the first alone. -/
def Obligations.TwoCommandsTakeEffectInOrder : Prop := ∀ (i j : Instr) (s : State), ∃ t u p q,
  exec i s = .next t ∧ t.port = .outstanding 0 p ∧
  exec j { s with block := t.block } = .next u ∧ u.port = .outstanding 0 q ∧
  run (commandRun [i, j]) s = .next { s with block := u.block, port := .idle, taken := s.taken ++ [p, q] }

/-- R98: a run always completes, with exactly one response per command and none for a reset, after those already taken. -/
def Obligations.RunGivesOneResponsePerCommand : Prop := ∀ (rs : List RunStep) (s : State),
  ∃ t l, run rs s = .next t ∧ t.taken = s.taken ++ l ∧ l.length = (rs.filter fun r => r != .reset).length

/-- R92, R98: what a run observes after a reset depends on nothing before it: not on the record, the port, or what the host
will do at later edges; only the responses already taken stay in front. That the record observed is the one after the last
move, a reset included, is the model's choice (log entry 23). -/
def Obligations.ResetForgetsEverything : Prop := ∀ (rs : List RunStep) (s t s' t' : State), s.taken = t.taken →
  run (.reset :: rs) s = .next s' → run (.reset :: rs) t = .next t' →
  (observe s').1 = (observe t').1 ∧ (observe s').2.Alike (observe t').2

/-- R94: after WRPOLY of a changed polynomial in idle mode, a FOLD with no BUILD between is rejected with `NO_TABLE` and folds
nothing, whatever commands stand between, and with a BUILD between folds with the new polynomial's table (a table storage in
the model's canonical form, log entry 2); in active mode the WRPOLY is rejected and the FOLD uses the table that stands. -/
def Obligations.PolynomialHazardInterlocked : Prop := ∀ (s : State) (p : Word) (b : Byte),
  (s.block.active = false → p ≠ s.block.poly → ∀ between : List Instr, .build ∉ between →
    ∃ t, run (commandRun (.wrpoly p :: between)) s = .next t ∧ t.block.active = false ∧
      run (commandRun (.wrpoly p :: (between ++ [.fold b]))) s = .next { t with
        block := { t.block with err := true, errCode := 4#4 }
        taken := t.taken ++ [⟨false, 0x00000004#32⟩] }) ∧
  (s.block.active = false → s.block.table.wf = true →
    ∃ t, run (commandRun [.wrpoly p, .build, .fold b]) s = .next t ∧ t.block.poly = p ∧
      t.block.acc = fold s.block.acc b (buildTable p) ∧ t.taken = s.taken ++ List.replicate 3 ⟨true, 0#32⟩) ∧
  (s.block.active = true → s.block.tableValid = true →
    run (commandRun [.wrpoly p, .fold b]) s = .next { s with
      block := { s.block with
        acc := fold s.block.acc b (tableRead s.block.table), err := true, errCode := 2#4 }
      port := .idle
      taken := s.taken ++ [⟨false, 0x00000002#32⟩, ⟨true, 0#32⟩] })

/-- R93: from the reset values, whatever the table holds (the spec gives its contents no value), the boot commands are all
accepted and leave the wanted polynomial's table built; a FOLD, RDTAB or START before them is rejected with `NO_TABLE`. -/
def Obligations.BootBuildsTable : Prop := ∀ s : State, s.block.Alike Block.reset → s.block.table.wf = true →
  (∀ i, ((∃ b, i = .fold b) ∨ (∃ k, i = .rdtab k) ∨ i = .start) → exec i s = .next (s.rejected .noTable)) ∧
  ∀ (p : Option Word) (start : Bool),
    allAccepted (bootCommands p start) s = true ∧
    ∃ t, run (commandRun (bootCommands p start)) s = .next t ∧ t.block.tableValid = true ∧ t.block.active = start ∧
      t.block.poly = p.getD 0x04C11DB7#32 ∧ t.block.acc = 0#32 ∧ t.block.err = false ∧
      ∀ i, tableRead t.block.table i = buildTable (p.getD 0x04C11DB7#32) i

/-- R51: SETPOLY succeeds exactly in idle mode; CRCSEG and CRCFLAT succeed exactly when the table is valid or there is no
byte to fold. -/
def Obligations.PseudoInstructionsSucceed : Prop := ∀ s : State,
  (∀ p, allAccepted (expand (.setpoly p)) s = !s.block.active) ∧
  (∀ bs, allAccepted (expand (.crcseg bs)) s = (s.block.tableValid || bs.isEmpty)) ∧
  (∀ bs, allAccepted (expand (.crcflat bs)) s = (s.block.tableValid || bs.isEmpty))

/-- R72: the flat walk of a view reports `crc_seg(POLY, V)` as its last response and leaves it in ACC. -/
def Obligations.FlatWalkReportsCrcSeg : Prop := ∀ (s : State) (v : List Byte),
  s.block.Inv → s.block.tableValid = true →
  run (commandRun (flatWalk v)) s = .next { s with
    block := { s.block with acc := crcSeg s.block.poly v }
    port := .idle
    taken := s.taken ++ (List.replicate (v.length + 2) ⟨true, 0#32⟩ ++ [⟨true, crcSeg s.block.poly v⟩]) }

/-- R76: a planar walk within its view is accepted at every command and reports `crc_seg(POLY, Vc(V))`, the last segment's
value, whatever the luma and U bytes; with no V byte it reports `0xFFFFFFFF`. -/
def Obligations.PlanarWalkReportsLastSegment : Prop :=
  ∀ (s : State) (g : Geometry) (v : List Byte) (cmds : List Instr),
  s.block.Inv → s.block.tableValid = true → planarWalk g v = some cmds →
  ∃ vc l, readView v (chromaVOffsets g) = some vc ∧
    run (commandRun cmds) s = .next { s with
      block := { s.block with acc := crcSeg s.block.poly vc }
      port := .idle
      taken := s.taken ++ (List.replicate l ⟨true, 0#32⟩ ++ [⟨true, crcSeg s.block.poly vc⟩]) } ∧
    (g.height / 2 = 0 ∨ g.width = 0 → crcSeg s.block.poly vc = 0xFFFFFFFF#32)

/-- R79: a planar walk that reads ACC after each segment (option (b)) reports the three segment values, in the order Y, U, V. -/
def Obligations.PlanarWalkEachReportsSegments : Prop :=
  ∀ (s : State) (g : Geometry) (v : List Byte) (cmds : List Instr),
  s.block.Inv → s.block.tableValid = true → planarWalkEach g v = some cmds →
  ∃ y u vc, readView v (lumaOffsets g) = some y ∧ readView v (chromaUOffsets g) = some u ∧
    readView v (chromaVOffsets g) = some vc ∧
    run (commandRun cmds) s = .next { s with
      block := { s.block with acc := crcSeg s.block.poly vc }
      port := .idle
      taken := s.taken ++ [y, u, vc].flatMap fun bs =>
        List.replicate (bs.length + 2) ⟨true, 0#32⟩ ++ [⟨true, crcSeg s.block.poly bs⟩] }

/-- R77: the host issues a planar walk exactly when every offset it would read is inside the view. -/
def Obligations.PlanarWalkIssuedWithinBounds : Prop := ∀ (g : Geometry) (v : List Byte),
  (planarWalk g v).isSome = true ↔
    ∀ o ∈ lumaOffsets g ++ chromaUOffsets g ++ chromaVOffsets g, o < v.length

/-- R73: the luma walk reads exactly the columns below `2*floor(width/2)` of every row, that many bytes in all, in strictly
increasing offset order when the pitch is at least the width. -/
def Obligations.LumaOffsetsOfRows : Prop := ∀ g : Geometry,
  (∀ o, o ∈ lumaOffsets g ↔
    ∃ row col, row < g.height ∧ col < 2 * (g.width / 2) ∧ o = row * g.strideW + col) ∧
  (lumaOffsets g).length = g.height * (2 * (g.width / 2)) ∧
  (g.width ≤ g.strideW → (lumaOffsets g).Pairwise (fun a b => a < b))

/-- R74, R75: the U walk reads exactly the even columns below the width of every chroma row from the base
`stride_w*stride_h`, in strictly increasing order, and the V walk reads the byte after each. -/
def Obligations.ChromaOffsetsOfRows : Prop := ∀ g : Geometry,
  (∀ o, o ∈ chromaUOffsets g ↔
    ∃ row k, row < g.height / 2 ∧ 2 * k < g.width ∧ o = g.strideW * g.strideH + row * g.strideW + 2 * k) ∧
  (g.width ≤ g.strideW → (chromaUOffsets g).Pairwise (fun a b => a < b)) ∧
  chromaVOffsets g = (chromaUOffsets g).map (· + 1)

/-- R78: a stream run from idle mode, with a preparation that leaves a valid table, is accepted at every command whatever its
frames, and ends idle with the table still valid and no error raised by it. -/
def Obligations.StreamRunIsAccepted : Prop := ∀ (s : State) (setup : Setup) (frames : List Frame),
  s.block.Inv → s.block.active = false → (setup = .keep → s.block.tableValid = true) →
  allAccepted (streamRun setup frames) s = true ∧
  ∃ t, run (commandRun (streamRun setup frames)) s = .next t ∧
    t.block.active = false ∧ t.block.tableValid = true ∧ t.block.err = s.block.err ∧ t.block.errCode = s.block.errCode

/-! ## The assembler -/

/-- R50: every word the assembler produces for a line is the word of a command. -/
def Obligations.AssembledWordsDecode : Prop := ∀ (line : List Char) (ws : List CmdWord),
  assembleLine line = .ok ws → ∀ w ∈ ws, ∃ i, decode w = .ok i ∧ encode i = w

/-- R50: the rule's example, `FOLD 0x5A` = `0x110000005A` written with 10 digits; mnemonics in either case, a decimal
operand and a comment; an operand out of range, missing or extra is an error. -/
def Obligations.AssemblerExamples : Prop :=
  assembleLine ['F', 'O', 'L', 'D', ' ', '0', 'x', '5', 'A'] = .ok [0x110000005A#40] ∧
  hexText 0x110000005A#40 = ['1', '1', '0', '0', '0', '0', '0', '0', '5', 'A'] ∧
  assembleLine ['f', 'o', 'l', 'd', ' ', '9', '0', ' ', ';', 'x'] = .ok [0x110000005A#40] ∧
  assembleLine ['F', 'O', 'L', 'D', ' ', '2', '5', '6'] = .error .outOfRange ∧
  assembleLine ['F', 'O', 'L', 'D'] = .error .missingOperand ∧
  assembleLine ['N', 'O', 'P', ' ', '1'] = .error .extraOperand
end

