-- ==== Sys2Proof/Laws/Decode.lean ====
section
/-! SUPPORT. Laws/Decode.lean: the fields of a command word, and what checking a form answers. -/

namespace Sys2Proof

@[simp] theorem opField_append (op : Byte) (operand : Word) : opField (op ++ operand) = op :=
  BitVec.extractLsb'_append_eq_left

@[simp] theorem operandField_append (op : Byte) (operand : Word) : operandField (op ++ operand) = operand :=
  BitVec.extractLsb'_append_eq_right

/-- `imm8` is the low byte of the operand field (R44). -/
theorem imm8Field_eq (w : CmdWord) : imm8Field w = (operandField w).setWidth 8 := by
  simp only [imm8Field, operandField]
  ext k hk
  simp
  omega

/-- A word is its opcode field and its operand field (R43). -/
theorem word_eq_fields (w : CmdWord) : w = opField w ++ operandField w := by
  apply BitVec.eq_of_getLsbD_eq
  intro i hi
  simp only [opField, operandField, BitVec.getLsbD_append, BitVec.getLsbD_extractLsb']
  by_cases h : i < 32
  · simp [h]
  · have h8 : i - 32 < 8 := by omega
    have hi' : 32 + (i - 32) = i := by omega
    simp [h, h8, hi']

/-- An operand field with zeros above bit 7 is its low byte, zero-extended (R44). -/
theorem imm8_operand_eq (v : Word) (h : Form.imm8.operandOk v = true) : (v.setWidth 8).setWidth 32 = v := by
  simp only [Form.operandOk, beq_iff_eq] at h
  apply BitVec.eq_of_getLsbD_eq
  intro i hi
  by_cases h8 : i < 8
  · simp [h8, hi]
  · have hbit := congrArg (fun x => x.getLsbD (i - 8)) h
    have hi' : 8 + (i - 8) = i := by omega
    have h24 : i - 8 < 24 := by omega
    simp [hi', h24] at hbit
    simp [h8, hbit]

/-- A word is the command of a form exactly when its operand obeys the form. -/
theorem checkForm_ok {f : Form} {w : CmdWord} {i j : Instr} :
    checkForm f w i = .ok j ↔ f.operandOk (operandField w) = true ∧ i = j := by
  unfold checkForm
  split <;> simp_all

/-- And is refused, with its opcode and operand named, exactly when it does not. -/
theorem checkForm_error {f : Form} {w : CmdWord} {i : Instr} {e : DecodeError} :
    checkForm f w i = .error e ↔
      f.operandOk (operandField w) = false ∧ .operandBits (opField w) (operandField w) = e := by
  unfold checkForm
  split <;> simp_all

end Sys2Proof
end

