-- ==== Sys2Proof/Laws/State.lean ====
section
/-! SUPPORT. Laws/State.lean: each field after each update of the state, so that no proof unfolds a record update. -/

namespace Sys2Proof.Machine

variable (s : State)

@[simp] theorem State.setPoly_poly (v : Word) : (s.setPoly v).block.poly = v := rfl
@[simp] theorem State.setPoly_table (v : Word) : (s.setPoly v).block.table = s.block.table := rfl
@[simp] theorem State.setPoly_tableValid (v : Word) : (s.setPoly v).block.tableValid = s.block.tableValid := rfl
@[simp] theorem State.setPoly_acc (v : Word) : (s.setPoly v).block.acc = s.block.acc := rfl
@[simp] theorem State.setPoly_active (v : Word) : (s.setPoly v).block.active = s.block.active := rfl
@[simp] theorem State.setPoly_err (v : Word) : (s.setPoly v).block.err = s.block.err := rfl
@[simp] theorem State.setPoly_errCode (v : Word) : (s.setPoly v).block.errCode = s.block.errCode := rfl
@[simp] theorem State.setPoly_port (v : Word) : (s.setPoly v).port = s.port := rfl
@[simp] theorem State.setPoly_host (v : Word) : (s.setPoly v).host = s.host := rfl
@[simp] theorem State.setPoly_pending (v : Word) : (s.setPoly v).pending = s.pending := rfl
@[simp] theorem State.setPoly_taken (v : Word) : (s.setPoly v).taken = s.taken := rfl

@[simp] theorem State.setTable_poly (m : Memory) : (s.setTable m).block.poly = s.block.poly := rfl
@[simp] theorem State.setTable_table (m : Memory) : (s.setTable m).block.table = m := rfl
@[simp] theorem State.setTable_tableValid (m : Memory) : (s.setTable m).block.tableValid = s.block.tableValid := rfl
@[simp] theorem State.setTable_acc (m : Memory) : (s.setTable m).block.acc = s.block.acc := rfl
@[simp] theorem State.setTable_active (m : Memory) : (s.setTable m).block.active = s.block.active := rfl
@[simp] theorem State.setTable_err (m : Memory) : (s.setTable m).block.err = s.block.err := rfl
@[simp] theorem State.setTable_errCode (m : Memory) : (s.setTable m).block.errCode = s.block.errCode := rfl
@[simp] theorem State.setTable_port (m : Memory) : (s.setTable m).port = s.port := rfl
@[simp] theorem State.setTable_host (m : Memory) : (s.setTable m).host = s.host := rfl
@[simp] theorem State.setTable_pending (m : Memory) : (s.setTable m).pending = s.pending := rfl
@[simp] theorem State.setTable_taken (m : Memory) : (s.setTable m).taken = s.taken := rfl

@[simp] theorem State.setTableValid_poly (v : Bool) : (s.setTableValid v).block.poly = s.block.poly := rfl
@[simp] theorem State.setTableValid_table (v : Bool) : (s.setTableValid v).block.table = s.block.table := rfl
@[simp] theorem State.setTableValid_tableValid (v : Bool) : (s.setTableValid v).block.tableValid = v := rfl
@[simp] theorem State.setTableValid_acc (v : Bool) : (s.setTableValid v).block.acc = s.block.acc := rfl
@[simp] theorem State.setTableValid_active (v : Bool) : (s.setTableValid v).block.active = s.block.active := rfl
@[simp] theorem State.setTableValid_err (v : Bool) : (s.setTableValid v).block.err = s.block.err := rfl
@[simp] theorem State.setTableValid_errCode (v : Bool) : (s.setTableValid v).block.errCode = s.block.errCode := rfl
@[simp] theorem State.setTableValid_port (v : Bool) : (s.setTableValid v).port = s.port := rfl
@[simp] theorem State.setTableValid_host (v : Bool) : (s.setTableValid v).host = s.host := rfl
@[simp] theorem State.setTableValid_pending (v : Bool) : (s.setTableValid v).pending = s.pending := rfl
@[simp] theorem State.setTableValid_taken (v : Bool) : (s.setTableValid v).taken = s.taken := rfl

@[simp] theorem State.setAcc_poly (v : Word) : (s.setAcc v).block.poly = s.block.poly := rfl
@[simp] theorem State.setAcc_table (v : Word) : (s.setAcc v).block.table = s.block.table := rfl
@[simp] theorem State.setAcc_tableValid (v : Word) : (s.setAcc v).block.tableValid = s.block.tableValid := rfl
@[simp] theorem State.setAcc_acc (v : Word) : (s.setAcc v).block.acc = v := rfl
@[simp] theorem State.setAcc_active (v : Word) : (s.setAcc v).block.active = s.block.active := rfl
@[simp] theorem State.setAcc_err (v : Word) : (s.setAcc v).block.err = s.block.err := rfl
@[simp] theorem State.setAcc_errCode (v : Word) : (s.setAcc v).block.errCode = s.block.errCode := rfl
@[simp] theorem State.setAcc_port (v : Word) : (s.setAcc v).port = s.port := rfl
@[simp] theorem State.setAcc_host (v : Word) : (s.setAcc v).host = s.host := rfl
@[simp] theorem State.setAcc_pending (v : Word) : (s.setAcc v).pending = s.pending := rfl
@[simp] theorem State.setAcc_taken (v : Word) : (s.setAcc v).taken = s.taken := rfl

@[simp] theorem State.setActive_poly (v : Bool) : (s.setActive v).block.poly = s.block.poly := rfl
@[simp] theorem State.setActive_table (v : Bool) : (s.setActive v).block.table = s.block.table := rfl
@[simp] theorem State.setActive_tableValid (v : Bool) : (s.setActive v).block.tableValid = s.block.tableValid := rfl
@[simp] theorem State.setActive_acc (v : Bool) : (s.setActive v).block.acc = s.block.acc := rfl
@[simp] theorem State.setActive_active (v : Bool) : (s.setActive v).block.active = v := rfl
@[simp] theorem State.setActive_err (v : Bool) : (s.setActive v).block.err = s.block.err := rfl
@[simp] theorem State.setActive_errCode (v : Bool) : (s.setActive v).block.errCode = s.block.errCode := rfl
@[simp] theorem State.setActive_port (v : Bool) : (s.setActive v).port = s.port := rfl
@[simp] theorem State.setActive_host (v : Bool) : (s.setActive v).host = s.host := rfl
@[simp] theorem State.setActive_pending (v : Bool) : (s.setActive v).pending = s.pending := rfl
@[simp] theorem State.setActive_taken (v : Bool) : (s.setActive v).taken = s.taken := rfl

@[simp] theorem State.setError_poly (e : Bool) (c : BitVec 4) : (s.setError e c).block.poly = s.block.poly := rfl
@[simp] theorem State.setError_table (e : Bool) (c : BitVec 4) : (s.setError e c).block.table = s.block.table := rfl
@[simp] theorem State.setError_tableValid (e : Bool) (c : BitVec 4) : (s.setError e c).block.tableValid = s.block.tableValid := rfl
@[simp] theorem State.setError_acc (e : Bool) (c : BitVec 4) : (s.setError e c).block.acc = s.block.acc := rfl
@[simp] theorem State.setError_active (e : Bool) (c : BitVec 4) : (s.setError e c).block.active = s.block.active := rfl
@[simp] theorem State.setError_err (e : Bool) (c : BitVec 4) : (s.setError e c).block.err = e := rfl
@[simp] theorem State.setError_errCode (e : Bool) (c : BitVec 4) : (s.setError e c).block.errCode = c := rfl
@[simp] theorem State.setError_port (e : Bool) (c : BitVec 4) : (s.setError e c).port = s.port := rfl
@[simp] theorem State.setError_host (e : Bool) (c : BitVec 4) : (s.setError e c).host = s.host := rfl
@[simp] theorem State.setError_pending (e : Bool) (c : BitVec 4) : (s.setError e c).pending = s.pending := rfl
@[simp] theorem State.setError_taken (e : Bool) (c : BitVec 4) : (s.setError e c).taken = s.taken := rfl

@[simp] theorem State.setPort_poly (p : Port) : (s.setPort p).block.poly = s.block.poly := rfl
@[simp] theorem State.setPort_table (p : Port) : (s.setPort p).block.table = s.block.table := rfl
@[simp] theorem State.setPort_tableValid (p : Port) : (s.setPort p).block.tableValid = s.block.tableValid := rfl
@[simp] theorem State.setPort_acc (p : Port) : (s.setPort p).block.acc = s.block.acc := rfl
@[simp] theorem State.setPort_active (p : Port) : (s.setPort p).block.active = s.block.active := rfl
@[simp] theorem State.setPort_err (p : Port) : (s.setPort p).block.err = s.block.err := rfl
@[simp] theorem State.setPort_errCode (p : Port) : (s.setPort p).block.errCode = s.block.errCode := rfl
@[simp] theorem State.setPort_port (p : Port) : (s.setPort p).port = p := rfl
@[simp] theorem State.setPort_host (p : Port) : (s.setPort p).host = s.host := rfl
@[simp] theorem State.setPort_pending (p : Port) : (s.setPort p).pending = s.pending := rfl
@[simp] theorem State.setPort_taken (p : Port) : (s.setPort p).taken = s.taken := rfl

@[simp] theorem State.setPending_poly (o : Option CmdWord) : (s.setPending o).block.poly = s.block.poly := rfl
@[simp] theorem State.setPending_table (o : Option CmdWord) : (s.setPending o).block.table = s.block.table := rfl
@[simp] theorem State.setPending_tableValid (o : Option CmdWord) : (s.setPending o).block.tableValid = s.block.tableValid := rfl
@[simp] theorem State.setPending_acc (o : Option CmdWord) : (s.setPending o).block.acc = s.block.acc := rfl
@[simp] theorem State.setPending_active (o : Option CmdWord) : (s.setPending o).block.active = s.block.active := rfl
@[simp] theorem State.setPending_err (o : Option CmdWord) : (s.setPending o).block.err = s.block.err := rfl
@[simp] theorem State.setPending_errCode (o : Option CmdWord) : (s.setPending o).block.errCode = s.block.errCode := rfl
@[simp] theorem State.setPending_block (o : Option CmdWord) : (s.setPending o).block = s.block := rfl
@[simp] theorem State.setPending_port (o : Option CmdWord) : (s.setPending o).port = s.port := rfl
@[simp] theorem State.setPending_host (o : Option CmdWord) : (s.setPending o).host = s.host := rfl
@[simp] theorem State.setPending_pending (o : Option CmdWord) : (s.setPending o).pending = o := rfl
@[simp] theorem State.setPending_taken (o : Option CmdWord) : (s.setPending o).taken = s.taken := rfl

@[simp] theorem State.answered_poly (b : Block) (r : Response) : (s.answered b r).block.poly = b.poly := rfl
@[simp] theorem State.answered_table (b : Block) (r : Response) : (s.answered b r).block.table = b.table := rfl
@[simp] theorem State.answered_tableValid (b : Block) (r : Response) : (s.answered b r).block.tableValid = b.tableValid := rfl
@[simp] theorem State.answered_acc (b : Block) (r : Response) : (s.answered b r).block.acc = b.acc := rfl
@[simp] theorem State.answered_active (b : Block) (r : Response) : (s.answered b r).block.active = b.active := rfl
@[simp] theorem State.answered_err (b : Block) (r : Response) : (s.answered b r).block.err = b.err := rfl
@[simp] theorem State.answered_errCode (b : Block) (r : Response) : (s.answered b r).block.errCode = b.errCode := rfl
@[simp] theorem State.answered_port (b : Block) (r : Response) : (s.answered b r).port = .outstanding 0 r := rfl
@[simp] theorem State.answered_host (b : Block) (r : Response) : (s.answered b r).host = s.host := rfl
@[simp] theorem State.answered_pending (b : Block) (r : Response) : (s.answered b r).pending = s.pending := rfl
@[simp] theorem State.answered_taken (b : Block) (r : Response) : (s.answered b r).taken = s.taken := rfl

@[simp] theorem State.advanceHost_poly : (s.advanceHost).block.poly = s.block.poly := rfl
@[simp] theorem State.advanceHost_table : (s.advanceHost).block.table = s.block.table := rfl
@[simp] theorem State.advanceHost_tableValid : (s.advanceHost).block.tableValid = s.block.tableValid := rfl
@[simp] theorem State.advanceHost_acc : (s.advanceHost).block.acc = s.block.acc := rfl
@[simp] theorem State.advanceHost_active : (s.advanceHost).block.active = s.block.active := rfl
@[simp] theorem State.advanceHost_err : (s.advanceHost).block.err = s.block.err := rfl
@[simp] theorem State.advanceHost_errCode : (s.advanceHost).block.errCode = s.block.errCode := rfl
@[simp] theorem State.advanceHost_port : (s.advanceHost).port = s.port := rfl
@[simp] theorem State.advanceHost_host : (s.advanceHost).host = s.host.tail := rfl
@[simp] theorem State.advanceHost_pending : (s.advanceHost).pending = s.chosen := rfl
@[simp] theorem State.advanceHost_taken : (s.advanceHost).taken = s.taken := rfl

@[simp] theorem resetEdge_poly : (resetEdge s).block.poly = Block.reset.poly := rfl
@[simp] theorem resetEdge_table : (resetEdge s).block.table = Block.reset.table := rfl
@[simp] theorem resetEdge_tableValid : (resetEdge s).block.tableValid = Block.reset.tableValid := rfl
@[simp] theorem resetEdge_acc : (resetEdge s).block.acc = Block.reset.acc := rfl
@[simp] theorem resetEdge_active : (resetEdge s).block.active = Block.reset.active := rfl
@[simp] theorem resetEdge_err : (resetEdge s).block.err = Block.reset.err := rfl
@[simp] theorem resetEdge_errCode : (resetEdge s).block.errCode = Block.reset.errCode := rfl
@[simp] theorem resetEdge_port : (resetEdge s).port = .idle := rfl
@[simp] theorem resetEdge_host : (resetEdge s).host = s.host := rfl
@[simp] theorem resetEdge_pending : (resetEdge s).pending = s.pending := rfl
@[simp] theorem resetEdge_taken : (resetEdge s).taken = s.taken := rfl

@[simp] theorem resetEdge_block : (resetEdge s).block = Block.reset := rfl
@[simp] theorem State.answered_block (b : Block) (r : Response) : (s.answered b r).block = b := rfl
@[simp] theorem State.setPort_block (p : Port) : (s.setPort p).block = s.block := rfl
@[simp] theorem State.advanceHost_block : s.advanceHost.block = s.block := rfl

@[simp] theorem State.setPoly_block (v : Word) : (s.setPoly v).block = { s.block with poly := v } := rfl
@[simp] theorem State.setTable_block (m : Memory) : (s.setTable m).block = { s.block with table := m } := rfl
@[simp] theorem State.setTableValid_block (v : Bool) : (s.setTableValid v).block = { s.block with tableValid := v } := rfl
@[simp] theorem State.setAcc_block (v : Word) : (s.setAcc v).block = { s.block with acc := v } := rfl
@[simp] theorem State.setActive_block (v : Bool) : (s.setActive v).block = { s.block with active := v } := rfl
@[simp] theorem State.setError_block (e : Bool) (c : BitVec 4) : (s.setError e c).block = { s.block with err := e, errCode := c } := rfl

@[simp] theorem State.setPoly_answered (v : Word) (k : Block) (r : Response) : (s.setPoly v).answered k r = s.answered k r := rfl
@[simp] theorem State.setTable_answered (m : Memory) (k : Block) (r : Response) : (s.setTable m).answered k r = s.answered k r := rfl
@[simp] theorem State.setTableValid_answered (v : Bool) (k : Block) (r : Response) : (s.setTableValid v).answered k r = s.answered k r := rfl
@[simp] theorem State.setAcc_answered (v : Word) (k : Block) (r : Response) : (s.setAcc v).answered k r = s.answered k r := rfl
@[simp] theorem State.setActive_answered (v : Bool) (k : Block) (r : Response) : (s.setActive v).answered k r = s.answered k r := rfl
@[simp] theorem State.setError_answered (e : Bool) (c : BitVec 4) (k : Block) (r : Response) : (s.setError e c).answered k r = s.answered k r := rfl
@[simp] theorem State.setPort_answered (p : Port) (k : Block) (r : Response) : (s.setPort p).answered k r = s.answered k r := rfl

end Sys2Proof.Machine
end

