-- ==== Sys2Proof/Laws/Ops.lean ====
section
/-! SUPPORT. Laws/Ops.lean: what the shared operations answer, said once. -/

namespace Sys2Proof.Machine

/-- An accepted command answers; its record is the state's own (the writes came before). -/
@[simp] theorem respond_answers (v : Word) (s : State) : respond v s = .next (s.answered s.block ⟨true, v⟩) := rfl

/-- A rejected command answers its code, with ERR and ERRCODE written (R80). -/
@[simp] theorem reject_answers (c : RejectCode) (s : State) : reject c s = .next (s.rejected c) := rfl

@[simp] theorem onNext_next (f : State → State) (s : State) : onNext f (.next s) = .next (f s) := rfl

@[simp] theorem andThen_next (s : State) (f : State → Answer) : andThen (.next s) f = f s := rfl

/-- Rejecting is answering with ERR and ERRCODE written (R80). -/
theorem rejected_eq_answered (s : State) (c : RejectCode) :
    s.rejected c = s.answered { s.block with err := true, errCode := c.code } ⟨false, zextCode c.code⟩ := rfl

/-- Taking the response of a command just answered. -/
@[simp] theorem takeResponse_answered (s : State) (b : Block) (r : Response) :
    (s.answered b r).takeResponse = { s with block := b, port := .idle, taken := s.taken ++ [r] } := rfl

/-- Holding the response of a command just answered changes the port only. -/
@[simp] theorem holdResponse_answered (s : State) (n : Nat) (b : Block) (r : Response) :
    (s.answered b r).holdResponse n = { s with block := b, port := .outstanding n r } := rfl

/-- With `cmd_ready` 1 the host offers the word it has at hand. -/
theorem cmdOffered_idle (s : State) (hp : s.port = .idle) : cmdOffered s true = s.pending := by
  simp [cmdOffered, cmdReady, hp]

/-- At the next edge the host offers the word it has chosen exactly when `cmd_ready` is 1 there (R99). -/
theorem State.offered_eq (s : State) : s.offered = if cmdReady s s.nextInput.rstN then s.chosen else none := rfl

/-- An edge with no command outstanding and a word at hand accepts the word. -/
theorem portEdge_idle_offer (s : State) (i : PortIn) (w : CmdWord) (hr : i.rstN = true) (hc : s.pending = some w)
    (hp : s.port = .idle) : portEdge i s = accept w (s.setPending none) := by
  simp [portEdge, hr, hc, hp, cmdOffered_idle]

/-- An edge with no command outstanding and no word at hand changes nothing. -/
theorem portEdge_idle_quiet (s : State) (i : PortIn) (hr : i.rstN = true) (hc : s.pending = none)
    (hp : s.port = .idle) : portEdge i s = .next s := by
  simp [portEdge, hr, hc, hp, cmdOffered_idle]

/-- An edge while the response is not yet offered counts one wait down. -/
theorem portEdge_waiting (s : State) (i : PortIn) (n : Nat) (r : Response) (hr : i.rstN = true)
    (hp : s.port = .outstanding (n + 1) r) : portEdge i s = .next (s.setPort (.outstanding n r)) := by
  simp [portEdge, hr, hp]

/-- An edge with the response offered takes it or leaves everything as it is. -/
theorem portEdge_offered (s : State) (i : PortIn) (r : Response) (hr : i.rstN = true)
    (hp : s.port = .outstanding 0 r) : portEdge i s = if i.rspReady then .next s.takeResponse else .next s := by
  simp [portEdge, hr, hp]

/-- A reset edge. -/
theorem portEdge_reset (s : State) (i : PortIn) (hr : i.rstN = false) : portEdge i s = .next (resetEdge s) := by
  simp [portEdge, hr]

end Sys2Proof.Machine
end

