-- ==== Sys2Proof/Laws/Memory.lean ====
section
/-! SUPPORT. Laws/Memory.lean: reading after writing the table storage, and that every operation on it keeps the canonical
form. -/

namespace Sys2Proof.Machine

/-- The canonical form from a higher index is the form from a lower one. -/
theorem Memory.wfFrom_le {m : Memory} {lo lo' : Nat} (h : lo' ≤ lo) (hm : Memory.wfFrom lo m = true) :
    Memory.wfFrom lo' m = true := by
  cases m with
  | nil => rfl
  | cons c rest =>
    simp only [Memory.wfFrom, Bool.and_eq_true, decide_eq_true_eq] at hm ⊢
    exact ⟨⟨⟨h.trans hm.1.1.1, hm.1.1.2⟩, hm.1.2⟩, hm.2⟩

/-- Writing at an index of the table, at or above `lo`, keeps the canonical form from `lo`. -/
theorem Memory.wfFrom_write {m : Memory} {lo i : Nat} (v : Word) (hm : Memory.wfFrom lo m = true) (hlo : lo ≤ i)
    (hi : i < Config.tableEntries) : Memory.wfFrom lo (m.write i v) = true := by
  induction m generalizing lo with
  | nil =>
    by_cases hv : v = Memory.unlisted <;> simp [Memory.write, Memory.wfFrom, hv, hlo, hi]
  | cons c rest ih =>
    obtain ⟨k, x⟩ := c
    simp only [Memory.wfFrom, Bool.and_eq_true, decide_eq_true_eq] at hm
    obtain ⟨⟨⟨hk, hk'⟩, hx⟩, hrest⟩ := hm
    simp only [Memory.write]
    split
    · split
      · simp [Memory.wfFrom, *]
      · rename_i hik hv
        have : i + 1 ≤ k := hik
        simp [Memory.wfFrom, *]
    · split
      · split
        · exact Memory.wfFrom_le (by omega) hrest
        · subst_vars
          simp_all [Memory.wfFrom]
      · have := ih hrest (by omega)
        simp_all [Memory.wfFrom]

/-- Every write at an 8-bit index keeps the canonical form. -/
theorem tableWrite_wf {m : Memory} (i : Byte) (v : Word) (hm : m.wf = true) : (tableWrite m i v).wf = true :=
  Memory.wfFrom_write v hm (Nat.zero_le _) i.isLt

/-- An index below every listed one reads as unlisted. -/
theorem Memory.read_below {m : Memory} {lo i : Nat} (hm : Memory.wfFrom lo m = true) (hi : i < lo) :
    m.read i = Memory.unlisted := by
  induction m generalizing lo with
  | nil => rfl
  | cons c rest ih =>
    obtain ⟨k, x⟩ := c
    simp only [Memory.wfFrom, Bool.and_eq_true, decide_eq_true_eq] at hm
    have hne : i ≠ k := by omega
    simp only [Memory.read, hne, if_false]
    exact ih hm.2 (by omega)

/-- Reading the index just written. -/
theorem Memory.read_write_same (m : Memory) (i : Nat) (v : Word) {lo : Nat} (hm : Memory.wfFrom lo m = true) :
    (m.write i v).read i = v := by
  induction m generalizing lo with
  | nil => by_cases hv : v = Memory.unlisted <;> simp [Memory.write, Memory.read, hv]
  | cons c rest ih =>
    obtain ⟨k, x⟩ := c
    simp only [Memory.wfFrom, Bool.and_eq_true, decide_eq_true_eq] at hm
    simp only [Memory.write]
    split
    · split
      · rename_i hik hv
        have hne : i ≠ k := by omega
        simp only [Memory.read, hne, if_false]
        rw [hv]
        exact Memory.read_below hm.2 (by omega)
      · simp [Memory.read]
    · split
      · split
        · rename_i hik hv
          subst hik
          rw [hv]
          exact Memory.read_below hm.2 (by omega)
        · simp [Memory.read]
      · rename_i hne
        simp only [Memory.read, hne, if_false]
        exact ih hm.2

/-- Reading another index than the one written. -/
theorem Memory.read_write_ne (m : Memory) {i j : Nat} (v : Word) (h : j ≠ i) : (m.write i v).read j = m.read j := by
  induction m with
  | nil => by_cases hv : v = Memory.unlisted <;> simp [Memory.write, Memory.read, hv, h]
  | cons c rest ih =>
    obtain ⟨k, x⟩ := c
    simp only [Memory.write]
    split
    · split <;> simp [Memory.read, h]
    · split
      · subst_vars
        split <;> simp [Memory.read, h]
      · simp only [Memory.read, ih]

/-- Filling any list of indices keeps the canonical form, and every index of the list then reads as `T`. -/
theorem fill_list (T : Byte → Word) (is : List Byte) (m : Memory) (hm : m.wf = true) :
    (is.foldl (fun m i => tableWrite m i (T i)) m).wf = true ∧
      ∀ j, tableRead (is.foldl (fun m i => tableWrite m i (T i)) m) j = if j ∈ is then T j else tableRead m j := by
  induction is generalizing m with
  | nil => simp [hm]
  | cons i is ih =>
    obtain ⟨hwf, hread⟩ := ih (tableWrite m i (T i)) (tableWrite_wf i (T i) hm)
    refine ⟨hwf, fun j => ?_⟩
    simp only [List.foldl_cons, hread, List.mem_cons]
    by_cases hj : j ∈ is
    · simp [hj]
    · by_cases hji : j = i
      · subst hji
        simp [hj, tableRead, tableWrite, Memory.read_write_same m _ _ hm]
      · have hne : j.toNat ≠ i.toNat := fun h => hji (BitVec.eq_of_toNat_eq h)
        simp [hj, hji, tableRead, tableWrite, Memory.read_write_ne m _ hne]

/-- Every 8-bit value is one of the indices `0 .. 255`. -/
theorem mem_tableIndices (i : Byte) : i ∈ tableIndices := by
  simp only [tableIndices, List.mem_map, List.mem_range]
  exact ⟨i.toNat, i.isLt, by simp⟩

/-- BUILD's loop keeps the canonical form. -/
theorem fillTable_wf (T : Byte → Word) {m : Memory} (hm : m.wf = true) : (fillTable T m).wf = true :=
  (fill_list T tableIndices m hm).1

/-- After BUILD's loop every index reads as `T`. -/
theorem fillTable_read (T : Byte → Word) {m : Memory} (hm : m.wf = true) (i : Byte) :
    tableRead (fillTable T m) i = T i := by
  rw [fillTable, (fill_list T tableIndices m hm).2 i, if_pos (mem_tableIndices i)]

/-- Two storages in canonical form from `lo` that read alike at every index of the table are the same list. -/
theorem Memory.eq_of_read {m n : Memory} {lo : Nat} (hm : Memory.wfFrom lo m = true) (hn : Memory.wfFrom lo n = true)
    (h : ∀ i < Config.tableEntries, m.read i = n.read i) : m = n := by
  induction m generalizing n lo with
  | nil =>
    cases n with
    | nil => rfl
    | cons d tl =>
      obtain ⟨k, y⟩ := d
      simp only [Memory.wfFrom, Bool.and_eq_true, decide_eq_true_eq] at hn
      have hy := h k hn.1.1.2
      simp [Memory.read] at hy
      simp [← hy] at hn
  | cons c rest ih =>
    obtain ⟨j, x⟩ := c
    simp only [Memory.wfFrom, Bool.and_eq_true, decide_eq_true_eq] at hm
    cases n with
    | nil =>
      have hx := h j hm.1.1.2
      simp [Memory.read] at hx
      simp [hx] at hm
    | cons d tl =>
      obtain ⟨k, y⟩ := d
      simp only [Memory.wfFrom, Bool.and_eq_true, decide_eq_true_eq] at hn
      have hjk : j = k := by
        rcases Nat.lt_trichotomy j k with hlt | heq | hgt
        · have hx := h j hm.1.1.2
          simp only [Memory.read, Nat.ne_of_lt hlt, if_true, if_false] at hx
          rw [Memory.read_below hn.2 (by omega)] at hx
          simp [hx] at hm
        · exact heq
        · have hy := h k hn.1.1.2
          simp only [Memory.read, Nat.ne_of_lt hgt, if_true, if_false] at hy
          rw [Memory.read_below hm.2 (by omega)] at hy
          simp [← hy] at hn
      subst hjk
      have hxy : x = y := by simpa [Memory.read] using h j hm.1.1.2
      subst hxy
      congr 1
      refine ih hm.2 hn.2 fun i hi => ?_
      by_cases hij : i = j
      · rw [hij, Memory.read_below hm.2 (by omega), Memory.read_below hn.2 (by omega)]
      · simpa [Memory.read, hij] using h i hi

/-- Equal contents are equal lists: the canonical form is one per table. -/
theorem table_eq_of_read {m n : Memory} (hm : m.wf = true) (hn : n.wf = true)
    (h : ∀ i : Byte, tableRead m i = tableRead n i) : m = n := by
  refine Memory.eq_of_read hm hn fun i hi => ?_
  simpa [tableRead, Nat.mod_eq_of_lt hi] using h (BitVec.ofNat 8 i)

/-- Reset's storage is in the canonical form. -/
theorem reset_table_wf : State.reset.block.table.wf = true := rfl

end Sys2Proof.Machine
end

