-- ==== Sys2Proof/Laws/PerInstr.lean ====
section
/-! SUPPORT. Laws/PerInstr.lean: for every command, the fields of its word are its opcode and its operand (R43), and the operand
obeys its form (R44). -/

namespace Sys2Proof.Laws.WordFields

/-- The word of an instruction: the opcode and operand fields read back (R43), and the operand obeys the form (R44). -/
def Statement (i : Instr) : Prop :=
  opField (encode i) = i.opcode ∧ operandField (encode i) = i.operand ∧ i.wellFormed = true

/-- The fields of `{op, operand}` read back as they were put in. -/
theorem fields_of_encode (i : Instr) : opField (encode i) = i.opcode ∧ operandField (encode i) = i.operand := by
  constructor
  · exact BitVec.extractLsb'_append_eq_left
  · exact BitVec.extractLsb'_append_eq_right

/-- A zero-extended byte has zeros above bit 7. -/
theorem imm8_operandOk (b : Byte) : Form.imm8.operandOk (b.setWidth 32) = true := by
  simp only [Form.operandOk, beq_iff_eq]
  ext k hk
  simp

theorem nop : Statement .nop := ⟨rfl, rfl, rfl⟩
theorem wrpoly (imm32 : Word) : Statement (.wrpoly imm32) :=
  ⟨(fields_of_encode _).1, (fields_of_encode _).2, rfl⟩
theorem build : Statement .build := ⟨rfl, rfl, rfl⟩
theorem start : Statement .start := ⟨rfl, rfl, rfl⟩
theorem stop : Statement .stop := ⟨rfl, rfl, rfl⟩
theorem ackerr : Statement .ackerr := ⟨rfl, rfl, rfl⟩
theorem clear : Statement .clear := ⟨rfl, rfl, rfl⟩
theorem fold (b : Byte) : Statement (.fold b) :=
  ⟨(fields_of_encode _).1, (fields_of_encode _).2, imm8_operandOk b⟩
theorem final : Statement .final := ⟨rfl, rfl, rfl⟩
theorem rdacc : Statement .rdacc := ⟨rfl, rfl, rfl⟩
theorem rdpoly : Statement .rdpoly := ⟨rfl, rfl, rfl⟩
theorem rdtab (i : Byte) : Statement (.rdtab i) :=
  ⟨(fields_of_encode _).1, (fields_of_encode _).2, imm8_operandOk i⟩
theorem rdstat : Statement .rdstat := ⟨rfl, rfl, rfl⟩

end Sys2Proof.Laws.WordFields
end

