-- ==== Sys2Proof/Laws/Step.lean ====
section
/-! SUPPORT. Laws/Step.lean: a run of edges, one step at a time. -/

namespace Sys2Proof.Machine

/-- A run of edges is its first step and then the rest. -/
theorem core_run_next {k : Nat} {s t : State} (h : step s = .next t) :
    Host.Core.run core (k + 1) s = Host.Core.run core k t := by
  have h' : core.step s = .next t := h
  simp only [Host.Core.run, h']

/-- A step whose next move is `i`: the host has a word at hand. -/
theorem step_cons (s : State) (i : PortIn) (rest : List PortIn) (h : s.host = i :: rest) :
    step s = portEdge i { s with host := rest, pending := s.pending.or i.cmd } := by
  simp [step, State.nextInput, State.advanceHost, State.chosen, h]

end Sys2Proof.Machine
end

