-- ==== Sys2Proof/Tests/Slice0.lean ====
section
/-! SUPPORT. Tests/Slice0.lean: words written out from the encodings of R43 to R46, one-step tests with the values of
95_test_vectors.md (its vector is named at each), and a witness for the hypotheses of each statement. -/

namespace Sys2Proof.Tests

open Sys2Proof.Machine

/-! ## Words and forms -/

theorem test_decode_config : [0x0000000000#40, 0x011EDC6F41#40, 0x0200000000#40, 0x0300000000#40, 0x0400000000#40,
    0x0500000000#40].map (fun w => (decode w).toOption) =
    [some .nop, some (.wrpoly 0x1EDC6F41#32), some .build, some .start, some .stop, some .ackerr] := by decide

theorem test_decode_datapath : [0x1000000000#40, 0x11000000FF#40, 0x1200000000#40].map (fun w => (decode w).toOption) =
    [some .clear, some (.fold 0xFF#8), some .final] := by decide

theorem test_decode_readback : [0x2000000000#40, 0x2100000000#40, 0x2200000080#40, 0x2300000000#40].map
    (fun w => (decode w).toOption) = [some .rdacc, some .rdpoly, some (.rdtab 0x80#8), some .rdstat] := by decide

/-- DV-DEC-1 to DV-DEC-8. -/
theorem test_decode_illegal : [0x4200000000#40, 0x0600000000#40, 0xFF00000000#40, 0x1100000100#40, 0x2200000100#40,
    0x0000000001#40, 0x0500000001#40, 0x12FFFFFFFF#40].map (fun w => (decode w).toOption) =
    List.replicate 8 none := by decide

theorem test_encode : [Instr.nop, .wrpoly 0x1EDC6F41#32, .build, .start, .stop, .ackerr, .clear, .fold 0x5A#8, .final,
    .rdacc, .rdpoly, .rdtab 0x80#8, .rdstat].map encode =
    [0x0000000000#40, 0x011EDC6F41#40, 0x0200000000#40, 0x0300000000#40, 0x0400000000#40, 0x0500000000#40,
      0x1000000000#40, 0x110000005A#40, 0x1200000000#40, 0x2000000000#40, 0x2100000000#40, 0x2200000080#40,
      0x2300000000#40] := by decide

theorem test_decodeTableWord : decodeTableWord 40 0x11000000FF = some (.fold 0xFF#8) ∧
    decodeTableWord 40 0x0600000000 = none := by decide

/-- Every row's pattern decodes to the row's command with operand 0. -/
theorem test_opTable_patterns : opTable.all (fun r => (decode r.pattern).toOption == some (r.toInstr 0#32)) = true := by
  decide

/-- The smoke test of WellFormed: an ill-formed operand field for each form that has one is refused. -/
theorem test_form_none_refuses : Form.none.operandOk 0x00000001#32 = false := by decide
theorem test_form_imm8_refuses : Form.imm8.operandOk 0x00000100#32 = false := by decide
theorem test_form_accepts : Form.none.operandOk 0#32 = true ∧ Form.imm8.operandOk 0xFF#32 = true ∧
    Form.imm32.operandOk 0xFFFFFFFF#32 = true := by decide

/-! ## The CRC functions -/

/-- DV-TAB-1, DV-TAB-5 and DV-TAB-6. -/
theorem test_buildTable : buildTable 0x04C11DB7#32 0x80#8 = 0x690CE0EE#32 ∧ buildTable 0xFFFFFFFF#32 0xFF#8 = 0xFFFFFF80#32 ∧
    buildTable 0x1EDC6F41#32 0x80#8 = 0xC0C1D64F#32 := by decide

/-- DV-FOLD-6 and DV-FOLD-11. -/
theorem test_fold : fold 0x12345678#32 0x00#8 (buildTable 0x04C11DB7#32) = 0x71C5981E#32 ∧
    fold 0xDEADBEEF#32 0x5A#8 (buildTable 0x04C11DB7#32) = 0xD7B67932#32 := by decide

/-- DV-SEG-9, DV-SEG-10 and DV-SEG-14. -/
theorem test_crcSeg : crcSeg 0x04C11DB7#32 [0x31#8, 0x32#8, 0x33#8, 0x34#8, 0x35#8, 0x36#8, 0x37#8, 0x38#8, 0x39#8] =
    0x765E7680#32 ∧ crcSeg 0x04C11DB7#32 [0xFF#8, 0xFF#8, 0xFF#8, 0xFF#8] = 0x38FB2284#32 ∧
    crcSeg 0xFFFFFFFF#32 [0x31#8, 0x32#8, 0x33#8, 0x34#8, 0x35#8, 0x36#8, 0x37#8, 0x38#8, 0x39#8] = 0xD7975117#32 := by
  decide

/-! ## One command from a small state -/

/-- A state with no command outstanding, its record as the vectors of section 2.4 write it. -/
def st (poly : Word) (table : Memory) (tv : Bool) (acc : Word) (act : Bool) (err : Bool) (code : BitVec 4) : State :=
  ⟨⟨poly, table, tv, acc, act, err, code⟩, .idle, [], none, []⟩

/-- The record and the response after a command. -/
def outcome : Answer → Option (Block × Response)
  | .next ⟨b, .outstanding _ r, _, _, _⟩ => some (b, r)
  | _ => none

/-- CV-NOP-2. -/
theorem test_nop : outcome (command 0x0000000000#40 (st 0x04C11DB7#32 [] true 0x12345678#32 true true 3#4)) =
    some (⟨0x04C11DB7#32, [], true, 0x12345678#32, true, true, 3#4⟩, ⟨true, 0#32⟩) := by decide

/-- CV-WRPOLY-2 and CV-WRPOLY-5. -/
theorem test_wrpoly_changed : outcome (command 0x011EDC6F41#40 (st 0x04C11DB7#32 [] true 0#32 false false 0#4)) =
    some (⟨0x1EDC6F41#32, [], false, 0#32, false, false, 0#4⟩, ⟨true, 0#32⟩) := by decide
theorem test_wrpoly_active : outcome (command 0x011EDC6F41#40 (st 0x04C11DB7#32 [] true 0#32 true false 0#4)) =
    some (⟨0x04C11DB7#32, [], true, 0#32, true, true, 2#4⟩, ⟨false, 2#32⟩) := by decide

/-- CV-BUILD-1: entries of DV-TAB-FULL after BUILD from reset. -/
theorem test_build : (outcome (command 0x0200000000#40 State.reset)).map (fun o => (o.1.tableValid, o.2,
    tableRead o.1.table 0x01#8, tableRead o.1.table 0x80#8, tableRead o.1.table 0xFF#8)) =
    some (true, ⟨true, 0#32⟩, 0x04C11DB7#32, 0x690CE0EE#32, 0xB1F740B4#32) := by decide +kernel

/-- CV-BUILD-3. -/
theorem test_build_active : outcome (command 0x0200000000#40 (st 0x04C11DB7#32 [] true 0#32 true false 0#4)) =
    some (⟨0x04C11DB7#32, [], true, 0#32, true, true, 2#4⟩, ⟨false, 2#32⟩) := by decide

/-- CV-START-1 and CV-START-2. -/
theorem test_start : outcome (command 0x0300000000#40 (st 0x04C11DB7#32 [] true 0xCAFEBABE#32 false false 0#4)) =
    some (⟨0x04C11DB7#32, [], true, 0#32, true, false, 0#4⟩, ⟨true, 0#32⟩) := by decide
theorem test_start_no_table : outcome (command 0x0300000000#40 (st 0x04C11DB7#32 [] false 0#32 false false 0#4)) =
    some (⟨0x04C11DB7#32, [], false, 0#32, false, true, 4#4⟩, ⟨false, 4#32⟩) := by decide

/-- CV-STOP-1 and CV-STOP-2. -/
theorem test_stop : outcome (command 0x0400000000#40 (st 0x04C11DB7#32 [] true 0x5396EBAE#32 true false 0#4)) =
    some (⟨0x04C11DB7#32, [], true, 0x5396EBAE#32, false, false, 0#4⟩, ⟨true, 0#32⟩) := by decide
theorem test_stop_idle : outcome (command 0x0400000000#40 (st 0x04C11DB7#32 [] true 0#32 false false 0#4)) =
    some (⟨0x04C11DB7#32, [], true, 0#32, false, true, 3#4⟩, ⟨false, 3#32⟩) := by decide

/-- CV-ACKERR-1. -/
theorem test_ackerr : outcome (command 0x0500000000#40 (st 0x04C11DB7#32 [] true 0#32 false true 4#4)) =
    some (⟨0x04C11DB7#32, [], true, 0#32, false, false, 0#4⟩, ⟨true, 0#32⟩) := by decide

/-- CV-CLEAR-1. -/
theorem test_clear : outcome (command 0x1000000000#40 (st 0x04C11DB7#32 [] false 0xFFFFFFFF#32 false false 0#4)) =
    some (⟨0x04C11DB7#32, [], false, 0#32, false, false, 0#4⟩, ⟨true, 0#32⟩) := by decide

/-- CV-FOLD-3 (its entry 0xFF of DV-TAB-FULL) and CV-FOLD-6. -/
theorem test_fold_command :
    outcome (command 0x1100000000#40 (st 0x04C11DB7#32 [(255, 0xB1F740B4#32)] true 0xFFFFFFFF#32 false false 0#4)) =
    some (⟨0x04C11DB7#32, [(255, 0xB1F740B4#32)], true, 0x4E08BFB4#32, false, false, 0#4⟩, ⟨true, 0#32⟩) := by decide
theorem test_fold_illegal : outcome (command 0x1100000112#40 (st 0x04C11DB7#32 [] true 0x12345678#32 false false 0#4)) =
    some (⟨0x04C11DB7#32, [], true, 0x12345678#32, false, true, 1#4⟩, ⟨false, 1#32⟩) := by decide

/-- CV-FINAL-2. -/
theorem test_final : outcome (command 0x1200000000#40 (st 0x04C11DB7#32 [] false 0x5396EBAE#32 false false 0#4)) =
    some (⟨0x04C11DB7#32, [], false, 0xAC691451#32, false, false, 0#4⟩, ⟨true, 0#32⟩) := by decide

/-- CV-RDACC-1. -/
theorem test_rdacc : (outcome (command 0x2000000000#40 (st 0x04C11DB7#32 [] true 0xAC691451#32 false false 0#4))).map (·.2) =
    some ⟨true, 0xAC691451#32⟩ := by decide

/-- CV-RDPOLY-2. -/
theorem test_rdpoly : (outcome (command 0x2100000000#40 (st 0x1EDC6F41#32 [] false 0#32 false false 0#4))).map (·.2) =
    some ⟨true, 0x1EDC6F41#32⟩ := by decide

/-- CV-RDTAB-3 (its entry of DV-TAB-FULL) and CV-RDTAB-6. -/
theorem test_rdtab :
    (outcome (command 0x2200000080#40 (st 0x04C11DB7#32 [(128, 0x690CE0EE#32)] true 0#32 false false 0#4))).map (·.2) =
    some ⟨true, 0x690CE0EE#32⟩ := by decide
theorem test_rdtab_no_table : outcome (command 0x2200000080#40 (st 0x04C11DB7#32 [] false 0#32 false false 0#4)) =
    some (⟨0x04C11DB7#32, [], false, 0#32, false, true, 4#4⟩, ⟨false, 4#32⟩) := by decide

/-- CV-RDSTAT-2. -/
theorem test_rdstat : outcome (command 0x2300000000#40 (st 0x04C11DB7#32 [] true 0#32 true true 3#4)) =
    some (⟨0x04C11DB7#32, [], true, 0#32, true, true, 3#4⟩, ⟨true, 0x37#32⟩) := by decide

/-! ## One edge -/

/-- The first edge after reset accepts and performs the word placed (CV-WRPOLY-1). -/
theorem test_step_first_command : (outcome (step (State.reset.withFetchWord 40 0x011EDC6F41))).map (fun o =>
    (o.1.poly, o.2)) = some (0x1EDC6F41#32, ⟨true, 0#32⟩) := by decide

/-- With nothing placed, a step from reset changes nothing (R98: the host issues no command). -/
theorem test_step_quiet : step State.reset = .next State.reset := rfl

/-- Reset takes precedence over a command offered at the same edge (R92 (e)): it is not offered, and waits (R99, log entry 15). -/
theorem test_step_reset_precedence :
    step { st 0#32 [] true 5#32 true true 3#4 with port := .outstanding 2 ⟨true, 0#32⟩, host := [⟨false, some 0#40, true⟩] } =
    .next { State.reset with pending := some 0#40 } := rfl

/-- A word chosen while a command is outstanding waits, whatever the host's list says next (log entry 15). -/
theorem test_step_word_waits : (match step { st 0#32 [] true 5#32 true true 3#4 with
    port := .outstanding 2 ⟨true, 0#32⟩, host := [⟨true, some 1#40, true⟩], pending := some 0x1000000000#40 } with
    | .next t => t.pending
    | _ => none) = some 0x1000000000#40 := rfl

/-! ## Assembler and reference sequences -/

theorem test_asm_pseudo : assembleLine ['S', 'e', 't', 'P', 'o', 'l', 'y', ' ', '0', 'x', 'F', 'f'] =
    .ok [0x01000000FF#40, 0x0200000000#40] := by decide
theorem test_asm_crcflat : assembleLine ['C', 'R', 'C', 'F', 'L', 'A', 'T', ' ', '1', ',', ' ', '0', 'x', '2'] =
    .ok [0x1000000000#40, 0x1100000001#40, 0x1100000002#40, 0x1200000000#40, 0x2000000000#40] := by decide
theorem test_asm_empty_segment : assemble ['C', 'R', 'C', 'S', 'E', 'G', '\n', ';', ' ', 'x'] =
    .ok [0x1000000000#40, 0x1200000000#40] := by decide

/-- DV-PLANAR-3: the offsets of Y, U and Vc. -/
theorem test_planar_offsets : lumaOffsets ⟨4, 2, 128, 32⟩ = [0, 1, 2, 3, 128, 129, 130, 131] ∧
    chromaUOffsets ⟨4, 2, 128, 32⟩ = [4096, 4098] ∧ chromaVOffsets ⟨4, 2, 128, 32⟩ = [4097, 4099] := by decide

/-- DV-PLANAR-4: odd width. -/
theorem test_planar_odd_width : lumaOffsets ⟨3, 2, 128, 32⟩ = [0, 1, 128, 129] ∧
    chromaUOffsets ⟨3, 2, 128, 32⟩ = [4096, 4098] := by decide

/-- R78 (c): the host's frame indices start at 1. -/
theorem test_numberFrames : numberFrames [5#32, 6#32] = [(1, 5#32), (2, 6#32)] := by decide

/-- R71: the aligned strides. -/
theorem test_align : Geometry.aligned 129 32 = ⟨129, 32, 256, 32⟩ := by decide

/-! ## Witnesses of the statements' hypotheses -/

/-- The record with a built table (R55), the accumulator and mode given, no error. -/
def built (p : Word) (a : Word) (act : Bool) : Block := ⟨p, fillTable (buildTable p) [], true, a, act, false, 0#4⟩

/-- It satisfies the invariant. -/
theorem built_inv (p a : Word) (act : Bool) : (built p a act).Inv :=
  ⟨fillTable_wf (buildTable p) (m := []) rfl, fun _ => fillTable_read (buildTable p) (m := []) rfl, fun _ => rfl,
    by simp [built], by simp [built]⟩

/-- A state with a built table and no command outstanding. -/
def bst (p a : Word) (act : Bool) : State := ⟨built p a act, .idle, [], none, []⟩

/-- Reset's record satisfies the invariant. -/
theorem reset_inv : Block.reset.Inv :=
  ⟨rfl, by simp [Block.reset], by simp [Block.reset], by simp [Block.reset], by simp [Block.reset]⟩

theorem wit_WrpolyWritesPolynomial : State.reset.block.active = false ∧ (bst 1#32 0#32 true).block.active = true := ⟨rfl, rfl⟩

theorem wit_NopDoesNothing : (1#32 : Word) ≠ 0#32 := by decide

theorem wit_BuildBuildsTable : (bst 1#32 7#32 false).block.active = false ∧ (bst 1#32 7#32 false).block.table.wf = true ∧
    (bst 1#32 7#32 false).block.Inv ∧ (bst 1#32 7#32 false).block.tableValid = true ∧
    (bst 1#32 7#32 true).block.active = true :=
  ⟨rfl, (built_inv _ _ _).tableCanonical, built_inv _ _ _, rfl, rfl⟩

theorem wit_StartEntersActive : (bst 1#32 7#32 false).block.active = false ∧ (bst 1#32 7#32 false).block.tableValid = true ∧
    State.reset.block.active = false ∧ State.reset.block.tableValid = false ∧
    (bst 1#32 7#32 true).block.active = true ∧ (bst 1#32 7#32 true).block.tableValid = true ∧ Instr.nop ≠ .stop ∧
    exec .nop (bst 1#32 7#32 true) = .next ((bst 1#32 7#32 true).answered (bst 1#32 7#32 true).block ⟨true, 0#32⟩) :=
  ⟨rfl, rfl, rfl, rfl, rfl, rfl, by decide, rfl⟩

theorem wit_StopEntersIdle : (bst 1#32 7#32 true).block.active = true ∧ State.reset.block.active = false := ⟨rfl, rfl⟩

theorem wit_AckerrClearsErrors : State.reset.block.Inv ∧ State.reset.block.err = false ∧ (1#32 : Word) ≠ 0#32 :=
  ⟨reset_inv, rfl, by decide⟩

theorem wit_FoldFoldsOneByte : (bst 1#32 0xAB000000#32 true).block.tableValid = true ∧ State.reset.block.tableValid = false ∧
    (bst 1#32 0xAB000000#32 true).block.Inv ∧ (bst 1#32 0xAB000000#32 true).block.active = true ∧
    (bst 1#32 0xAB000000#32 true).block.acc.extractLsb' 24 8 = 0xAB#8 := ⟨rfl, rfl, built_inv _ _ _, rfl, by decide⟩

theorem wit_FoldFoldsOneByte_ones : (bst 0x04C11DB7#32 0xFFFFFFFF#32 false).block.Inv ∧
    (bst 0x04C11DB7#32 0xFFFFFFFF#32 false).block.tableValid = true ∧
    (bst 0x04C11DB7#32 0xFFFFFFFF#32 false).block.poly = 0x04C11DB7#32 ∧
    (bst 0x04C11DB7#32 0xFFFFFFFF#32 false).block.acc = 0xFFFFFFFF#32 := ⟨built_inv _ _ _, rfl, rfl, rfl⟩

theorem wit_FinalComplementsAccumulator : ∃ t u, exec .final State.reset = .next t ∧ exec .final t = .next u :=
  ⟨_, _, rfl, rfl⟩

theorem wit_RdtabReturnsEntry : (bst 1#32 7#32 true).block.tableValid = true ∧ State.reset.block.tableValid = false ∧
    (bst 1#32 7#32 true).block.Inv := ⟨rfl, rfl, built_inv _ _ _⟩

theorem wit_RdstatReturnsStatus : State.reset.block = Block.reset ∧
    ((bst 1#32 7#32 true).block.tableValid = true ∧ (bst 1#32 7#32 true).block.active = true ∧
      (bst 1#32 7#32 true).block.err = false ∧ (bst 1#32 7#32 true).block.errCode = 0#4) ∧
    ((st 1#32 [] false 0#32 false true 4#4).block.tableValid = false ∧
      (st 1#32 [] false 0#32 false true 4#4).block.active = false ∧
      (st 1#32 [] false 0#32 false true 4#4).block.err = true ∧
      (st 1#32 [] false 0#32 false true 4#4).block.errCode = 4#4) :=
  ⟨rfl, ⟨rfl, rfl, rfl, rfl⟩, rfl, rfl, rfl, rfl⟩

theorem wit_RegistersKeptByOtherCommands : (∃ t, exec (.fold 1#8) (bst 1#32 7#32 true) = .next t) ∧
    rejection (.fold 1#8) (bst 1#32 7#32 true).block = none ∧
    rejection (.fold 1#8) State.reset.block = some .noTable := ⟨⟨_, rfl⟩, rfl, rfl⟩

theorem wit_RejectionIsPrecise : decode 0x0600000000#40 = .error (.reservedOpcode 0x06#8) ∧
    rejection .stop State.reset.block = some .badTransition ∧ (∃ t, reject .noTable State.reset = .next t) ∧
    (∃ u, respond 0#32 State.reset = .next u) := ⟨rfl, rfl, ⟨_, rfl⟩, _, rfl⟩

theorem wit_EveryCommandAnswersOnce : rejection .stop State.reset.block = some .badTransition ∧
    rejection .rdacc State.reset.block = none ∧ decode 0x1200000000#40 = .ok .final ∧
    decode 0x0600000000#40 = .error (.reservedOpcode 0x06#8) := ⟨rfl, rfl, rfl, rfl⟩

theorem wit_RejectionMatrixHolds : rejection .build (bst 1#32 7#32 true).block = some .cfgActive ∧
    rejection .build (bst 1#32 7#32 false).block = none := ⟨rfl, rfl⟩

theorem wit_ModesChangeByStartAndStopOnly :
    (∃ t, exec .start (bst 1#32 7#32 false) = .next t ∧ (bst 1#32 7#32 false).block.active = false ∧ t.block.active = true) ∧
    (∃ t, exec .stop (bst 1#32 7#32 true) = .next t ∧ (bst 1#32 7#32 true).block.active = true ∧ t.block.active = false) ∧
    (bst 1#32 7#32 true).block.Inv ∧ (bst 1#32 7#32 false).block.Inv ∧ (bst 1#32 7#32 false).block.tableValid = true ∧
    Block.reset.Inv ∧ Block.reset.tableValid = false :=
  ⟨⟨_, rfl, rfl, rfl⟩, ⟨_, rfl, rfl, rfl⟩, built_inv _ _ _, built_inv _ _ _, rfl, reset_inv, rfl⟩

theorem wit_ReadsRepeat : rejection (.rdtab 1#8) (bst 1#32 7#32 true).block = none ∧
    rejection .rdstat State.reset.block = none := ⟨rfl, rfl⟩

theorem wit_LaterRejectionOverwritesCode :
    ∃ t u, reject .noTable State.reset = .next t ∧ reject .badTransition t = .next u := ⟨_, _, rfl, rfl⟩

/-- Two records with different tables that are not valid. -/
theorem wit_InvalidTableIsUnobservable :
    (st 1#32 [(3, 5#32)] false 0#32 false false 0#4).block.Alike (st 1#32 [] false 0#32 false false 0#4).block ∧
    (st 1#32 [(3, 5#32)] false 0#32 false false 0#4).block.table.wf = true ∧
    (st 1#32 [] false 0#32 false false 0#4).block.table.wf = true :=
  ⟨⟨rfl, rfl, rfl, rfl, rfl, rfl, by simp [st]⟩, by decide, rfl⟩

theorem wit_EncodeOfDecode : decode 0x110000005A#40 = .ok (.fold 0x5A#8) := by rfl

theorem wit_DecodeIsMatchAndMask : (∃ r ∈ opTable, r.accepts 0x110000005A#40 = true) ∧
    (∀ r ∈ opTable, r.accepts 0x1100000100#40 = false) := by decide

theorem wit_ReservedOpcodesRejected : 0x06 ≤ (opField 0x0600000001#40).toNat ∧ (opField 0x0F00000000#40).toNat ≤ 0x0F ∧
    0x13 ≤ (opField 0x1300000000#40).toNat ∧ (opField 0x1F00000000#40).toNat ≤ 0x1F ∧
    0x24 ≤ (opField 0x2400000000#40).toNat ∧ decode 0xFF00000000#40 = .error (.reservedOpcode 0xFF#8) :=
  ⟨by decide, by decide, by decide, by decide, by decide, rfl⟩

theorem wit_SegmentRunComputesCrcSeg : (bst 1#32 7#32 false).block.Inv ∧ (bst 1#32 7#32 false).block.tableValid = true :=
  ⟨built_inv _ _ _, rfl⟩

/-- A state whose next edge offers a word to a port with nothing outstanding, its record satisfying the invariant. -/
def offering (w : CmdWord) : State := { bst 1#32 7#32 true with host := [PortIn.offer w] }

theorem wit_StepKeepsInvariant : (offering 0x1200000000#40).Inv ∧ ∃ t, step (offering 0x1200000000#40) = .next t :=
  ⟨⟨built_inv _ _ _, by simp [offering, bst], by simp [offering, bst], by simp [offering, bst]⟩, _, rfl⟩

theorem wit_StepRunsDecodedCommand : (offering 0x1200000000#40).host = [PortIn.offer 0x1200000000#40] ∧
    (PortIn.offer 0x1200000000#40).rstN = true ∧
    (offering 0x1200000000#40).pending.or (PortIn.offer 0x1200000000#40).cmd = some 0x1200000000#40 ∧
    (offering 0x1200000000#40).port = .idle ∧ decode 0x1200000000#40 = .ok .final := ⟨rfl, rfl, rfl, rfl, rfl⟩

theorem wit_StepRejectsIllegalWord : (offering 0x0600000000#40).host = [PortIn.offer 0x0600000000#40] ∧
    (PortIn.offer 0x0600000000#40).rstN = true ∧
    (offering 0x0600000000#40).pending.or (PortIn.offer 0x0600000000#40).cmd = some 0x0600000000#40 ∧
    (offering 0x0600000000#40).port = .idle ∧ decode 0x0600000000#40 = .error (.reservedOpcode 0x06#8) :=
  ⟨rfl, rfl, rfl, rfl, rfl⟩

/-- A state with a response outstanding after `n` edges, and the host's inputs at the coming edges. -/
def waiting (n : Nat) (l : List PortIn) : State := ⟨built 1#32 7#32 true, .outstanding n ⟨true, 0#32⟩, l, none, []⟩

theorem wit_ResetEdgeRestoresRecord : (waiting 3 [PortIn.resetLine]).nextInput.rstN = false := rfl

theorem wit_EveryAcceptedCommandOneResponse : (offering 0x1200000000#40).nextInput.rstN = true ∧
    cmdReady (offering 0x1200000000#40) true = true ∧ (∃ t, step (offering 0x1200000000#40) = .next t) ∧
    rspOffered (waiting 0 [PortIn.take]) true = some ⟨true, 0#32⟩ ∧ (waiting 0 [PortIn.take]).nextInput.rspReady = true ∧
    (∃ t, step (waiting 0 [PortIn.take]) = .next t) := ⟨rfl, rfl, ⟨_, rfl⟩, rfl, rfl, _, rfl⟩

theorem wit_OfferedResponseStays : rspOffered (waiting 0 []) true = some ⟨true, 0#32⟩ ∧
    (waiting 0 []).nextInput.rstN = true ∧ (waiting 0 []).nextInput.rspReady = false := ⟨rfl, rfl, rfl⟩

theorem wit_OutstandingResponseArrives : (waiting 1 [PortIn.take, PortIn.take]).port = .outstanding 1 ⟨true, 0#32⟩ ∧
    (waiting 1 [PortIn.take, PortIn.take]).host = [PortIn.take, PortIn.take] ++ [] ∧
    [PortIn.take, PortIn.take].length = 1 + 1 ∧
    ∀ i ∈ [PortIn.take, PortIn.take], i.rstN = true ∧ i.rspReady = true := ⟨rfl, rfl, rfl, by decide⟩

theorem wit_HeldOfferAcceptedAfterResponse :
    { waiting 0 [PortIn.take, PortIn.quiet] with pending := some 0#40 }.port = .outstanding 0 ⟨true, 0#32⟩ ∧
    { waiting 0 [PortIn.take, PortIn.quiet] with pending := some 0#40 }.pending = some 0#40 ∧
    { waiting 0 [PortIn.take, PortIn.quiet] with pending := some 0#40 }.host = [PortIn.take] ++ PortIn.quiet :: [] ∧
    [PortIn.take].length = 0 + 1 ∧ (∀ i ∈ [PortIn.take], i.rstN = true ∧ i.rspReady = true) ∧
    PortIn.quiet.rstN = true := ⟨rfl, rfl, rfl, rfl, by decide, rfl⟩

/-- A word is not offered while a command is outstanding (R95, R99), nor at a reset edge (R92 (b)). -/
theorem test_not_offered_early : (waiting 0 [PortIn.offer 0#40]).offered = none ∧
    ({ bst 1#32 7#32 true with host := [PortIn.resetLine], pending := some 0#40 } : State).offered = none := ⟨rfl, rfl⟩

/-- A word that waits while a command is outstanding, and one that the coming edge accepts. -/
theorem wit_OfferHeldUntilAccepted :
    ({ waiting 1 [] with pending := some 0#40 }.pending = some 0#40 ∧
      cmdReady { waiting 1 [] with pending := some 0#40 } true = false ∧
      { waiting 1 [] with pending := some 0#40 }.port = .outstanding 1 ⟨true, 0#32⟩ ∧
      ∃ t, step { waiting 1 [] with pending := some 0#40 } = .next t) ∧
    (cmdReady (offering 0x1200000000#40) true = true ∧
      (offering 0x1200000000#40).offered = some 0x1200000000#40 ∧ ∃ t, step (offering 0x1200000000#40) = .next t) :=
  ⟨⟨rfl, rfl, rfl, _, rfl⟩, rfl, rfl, _, rfl⟩

/-- A host that delays `rsp_ready` by two edges and chooses its next word meanwhile. -/
theorem wit_PortRealisesAtomicCommand : ∃ (s : State) (wait : List PortIn), s.port = .idle ∧
    s.pending.or (PortIn.offer 0x1200000000#40).cmd = some 0x1200000000#40 ∧
    s.host = PortIn.offer 0x1200000000#40 :: (wait ++ [PortIn.offer 0#40, PortIn.quiet] ++ PortIn.take :: []) ∧
    wait.length = waitEdges 0x1200000000#40 ∧
    (∀ i ∈ PortIn.offer 0x1200000000#40 :: PortIn.take :: (wait ++ [PortIn.offer 0#40, PortIn.quiet]), i.rstN = true) ∧
    (∀ i ∈ [PortIn.offer 0#40, PortIn.quiet], i.rspReady = false) ∧ PortIn.take.rspReady = true :=
  ⟨{ bst 1#32 7#32 true with host := _ }, List.replicate (waitEdges 0x1200000000#40) PortIn.quiet, rfl, rfl, rfl,
    List.length_replicate, by
      intro i hi
      simp only [List.mem_cons, List.mem_append, List.mem_replicate, List.not_mem_nil, or_false] at hi
      obtain rfl | rfl | ⟨_, rfl⟩ | rfl | rfl := hi <;> rfl,
    by decide, rfl⟩

theorem wit_PolynomialHazardInterlocked : (bst 1#32 7#32 false).block.active = false ∧ (2#32 : Word) ≠ (bst 1#32 7#32 false).block.poly ∧
    Instr.build ∉ [Instr.start, .wrpoly 1#32, .clear] ∧ (bst 1#32 7#32 false).block.table.wf = true ∧
    (bst 1#32 7#32 true).block.active = true ∧ (bst 1#32 7#32 true).block.tableValid = true :=
  ⟨rfl, by show (2#32 : Word) ≠ 1#32; decide, by decide, (built_inv _ _ _).tableCanonical, rfl, rfl⟩

theorem wit_BootBuildsTable : (st 0x04C11DB7#32 [(3, 5#32)] false 0#32 false false 0#4).block.Alike Block.reset ∧
    (st 0x04C11DB7#32 [(3, 5#32)] false 0#32 false false 0#4).block.table.wf = true :=
  ⟨⟨rfl, rfl, rfl, rfl, rfl, rfl, by simp [st]⟩, by decide⟩

theorem wit_LatencyOfEachWord : decode 0x0200000000#40 = .ok .build ∧ decode 0x1200000000#40 ≠ .ok .build ∧
    ∃ t, accept 0x1200000000#40 State.reset = .next t := ⟨rfl, by decide, _, rfl⟩

theorem wit_FlatWalkReportsCrcSeg : (bst 1#32 7#32 true).block.Inv ∧ (bst 1#32 7#32 true).block.tableValid = true :=
  ⟨built_inv _ _ _, rfl⟩

/-- A planar walk within its view, one with V bytes and one without. -/
theorem wit_PlanarWalkReportsLastSegment : (bst 1#32 7#32 true).block.Inv ∧ (bst 1#32 7#32 true).block.tableValid = true ∧
    (planarWalk ⟨2, 2, 2, 2⟩ [1#8, 2#8, 3#8, 4#8, 5#8, 6#8]).isSome = true ∧
    (planarWalk ⟨2, 1, 2, 1⟩ [1#8, 2#8]).isSome = true ∧ (1 / 2 = 0 ∨ 2 = 0) :=
  ⟨built_inv _ _ _, rfl, by decide, by decide, by decide⟩

theorem wit_PlanarWalkEachReportsSegments :
    (planarWalkEach ⟨2, 2, 2, 2⟩ [1#8, 2#8, 3#8, 4#8, 5#8, 6#8]).isSome = true := by decide

theorem wit_ResetForgetsEverything : State.reset.taken = (bst 1#32 7#32 true).taken ∧
    (∃ s', run [.reset, .command 0#40] State.reset = .next s') ∧
    (∃ t', run [.reset, .command 0#40] (bst 1#32 7#32 true) = .next t') := ⟨rfl, ⟨_, rfl⟩, _, rfl⟩

theorem wit_LumaOffsetsOfRows : (⟨4, 2, 128, 32⟩ : Geometry).width ≤ (⟨4, 2, 128, 32⟩ : Geometry).strideW := by decide

theorem wit_ChromaOffsetsOfRows : (⟨3, 2, 4, 2⟩ : Geometry).width ≤ (⟨3, 2, 4, 2⟩ : Geometry).strideW := by decide

theorem wit_StreamRunIsAccepted : (bst 1#32 7#32 false).block.Inv ∧ (bst 1#32 7#32 false).block.active = false ∧
    (Setup.keep = .keep → (bst 1#32 7#32 false).block.tableValid = true) := ⟨built_inv _ _ _, rfl, fun _ => rfl⟩

theorem wit_AssembledWordsDecode : assembleLine ['N', 'O', 'P'] = .ok [0#40] := by decide

theorem wit_SegmentLaws : [1#8, 2#8].length = [3#8, 4#8].length := rfl

end Sys2Proof.Tests
end

/-! ## What a command word does, and the port that carries it (R5, R9, R42)

A command reads the record only, so its outcome is fixed by the record whatever the port and the host are doing
(`command_answersFromRecord`). The port then counts the word's edges down and holds the response until the host takes it
(`run_outstanding`, `step_takes_response`). -/

namespace Sys2Proof.Machine

/-! ### A command is a function of the record -/

/-- The outcome is a next state whose new record and response depend on the old record alone, with nothing else changed. -/
def AnswersFromRecord (f : State → Answer) : Prop :=
  ∀ b : Block, ∃ b' r, ∀ s : State, s.block = b → f s = .next (s.answered b' r)

/-- Writes to the record computed from the record, then a response computed from it. -/
theorem answersFromRecord_respond (g : Block → Block) (v : Block → Word) :
    AnswersFromRecord fun s => respond (v s.block) { s with block := g s.block } :=
  fun b => ⟨g b, ⟨true, v b⟩, by rintro s rfl; rfl⟩

theorem answersFromRecord_reject (c : RejectCode) : AnswersFromRecord (reject c) :=
  fun b => ⟨{ b with err := true, errCode := c.code }, ⟨false, zextCode c.code⟩, by rintro s rfl; rfl⟩

/-- A check of the record chooses between two such outcomes. -/
theorem AnswersFromRecord.ite {f g : State → Answer} (c : Block → Bool)
    (hf : AnswersFromRecord f) (hg : AnswersFromRecord g) :
    AnswersFromRecord fun s => if c s.block then f s else g s := by
  intro b
  cases hc : c b with
  | true =>
    obtain ⟨b', r, h⟩ := hf b
    exact ⟨b', r, by rintro s rfl; simp [hc, h s rfl]⟩
  | false =>
    obtain ⟨b', r, h⟩ := hg b
    exact ⟨b', r, by rintro s rfl; simp [hc, h s rfl]⟩

/-- WRPOLY's writes, on the record: only a changed value clears `TABLE_VALID` (R54). -/
theorem execWrpoly_answersFromRecord (p : Word) : AnswersFromRecord (execWrpoly p) := by
  refine .ite (·.active) (answersFromRecord_reject _) fun b => ?_
  by_cases hp : p = b.poly
  · exact ⟨{ b with poly := p }, ⟨true, 0#32⟩, by rintro s rfl; simp [hp]⟩
  · exact ⟨{ b with poly := p, tableValid := false }, ⟨true, 0#32⟩, by rintro s rfl; simp [hp]⟩

/-- Every command of R45 answers from the record: by its checks in their order, then its writes and its response. -/
theorem exec_answersFromRecord (i : Instr) : AnswersFromRecord (exec i) := by
  cases i with
  | nop => exact answersFromRecord_respond id fun _ => 0#32
  | wrpoly p => exact execWrpoly_answersFromRecord p
  | build =>
    exact .ite (·.active) (answersFromRecord_reject _)
      (answersFromRecord_respond
        (fun b => { b with table := fillTable (buildTable b.poly) b.table, tableValid := true }) fun _ => 0#32)
  | start =>
    exact .ite (·.active) (answersFromRecord_reject _) <|
      .ite (·.tableValid)
        (answersFromRecord_respond (fun b => { b with acc := 0#32, active := true }) fun _ => 0#32)
        (answersFromRecord_reject _)
  | stop =>
    exact .ite (·.active) (answersFromRecord_respond (fun b => { b with active := false }) fun _ => 0#32)
      (answersFromRecord_reject _)
  | ackerr => exact answersFromRecord_respond (fun b => { b with err := false, errCode := 0#4 }) fun _ => 0#32
  | clear => exact answersFromRecord_respond (fun b => { b with acc := 0#32 }) fun _ => 0#32
  | fold x =>
    exact .ite (·.tableValid)
      (answersFromRecord_respond (fun b => { b with acc := fold b.acc x (tableRead b.table) }) fun _ => 0#32)
      (answersFromRecord_reject _)
  | final => exact answersFromRecord_respond (fun b => { b with acc := ~~~ b.acc }) fun _ => 0#32
  | rdacc => exact answersFromRecord_respond id (·.acc)
  | rdpoly => exact answersFromRecord_respond id (·.poly)
  | rdtab k =>
    exact .ite (·.tableValid) (answersFromRecord_respond id fun b => tableRead b.table k) (answersFromRecord_reject _)
  | rdstat => exact answersFromRecord_respond id statusWord

theorem command_eq_exec {w : CmdWord} {i : Instr} (h : decode w = .ok i) : command w = exec i := by
  funext s; simp [command, h]

theorem command_eq_reject {w : CmdWord} {e : DecodeError} (h : decode w = .error e) :
    command w = reject .illegalCmd := by
  funext s; simp [command, h]

/-- Every 40-bit word, decoded or not, answers from the record (R5, R46). -/
theorem command_answersFromRecord (w : CmdWord) : AnswersFromRecord (command w) := by
  cases h : decode w with
  | ok i => exact command_eq_exec h ▸ exec_answersFromRecord i
  | error e => exact command_eq_reject h ▸ answersFromRecord_reject _

/-- One record and one response serve both levels: the port that accepts the word holds the response for the word's edges,
the atomic step has it taken. -/
theorem accept_transact_of_record (w : CmdWord) (b : Block) : ∃ b' r, ∀ s : State, s.block = b →
    accept w s = .next { s with block := b', port := .outstanding (waitEdges w) r } ∧
    transact w s = .next { s with block := b', port := .idle, taken := s.taken ++ [r] } := by
  obtain ⟨b', r, h⟩ := command_answersFromRecord w b
  exact ⟨b', r, fun s hs => by simp [accept, transact, h s hs]⟩

/-! ### Runs of edges -/

/-- A run of edges is its first edges and then the rest. -/
theorem core_run_add {k : Nat} (n : Nat) {s t : State} (h : Host.Core.run core k s = .next t) :
    Host.Core.run core (k + n) s = Host.Core.run core n t := by
  induction k generalizing s with
  | zero =>
    obtain rfl : s = t := Host.Outcome.next.inj h
    rw [Nat.zero_add]
  | succ k ih =>
    cases hs : step s with
    | next u => rw [Nat.succ_add, core_run_next hs, ih (core_run_next hs ▸ h)]
    | fault f => exact nomatch f
    | refused f =>
      have hs' : core.step s = .refused f := hs
      simp [Host.Core.run, hs'] at h

@[simp] theorem firstChosen_nil : firstChosen [] = none := rfl

@[simp] theorem firstChosen_append (l l' : List PortIn) :
    firstChosen (l ++ l') = (firstChosen l).or (firstChosen l') := List.findSome?_append

@[simp] theorem firstChosen_cons (i : PortIn) (l : List PortIn) :
    firstChosen (i :: l) = i.cmd.or (firstChosen l) := by
  cases h : i.cmd <;> simp [firstChosen, h]

/-- With no command outstanding, an edge outside reset accepts the word the host has at hand (R42 (b)). -/
theorem step_accepts {s : State} {i : PortIn} {rest : List PortIn} {w : CmdWord} (hh : s.host = i :: rest)
    (hp : s.port = .idle) (hr : i.rstN = true) (hw : s.pending.or i.cmd = some w) :
    step s = accept w { s with host := rest, pending := none } :=
  (step_cons s i rest hh).trans (portEdge_idle_offer _ i w hr hw hp)

/-- An edge that does not take the outstanding response counts one wait down, if any is left, and holds the response. -/
theorem step_holds_response {s : State} {i : PortIn} {rest : List PortIn} {n : Nat} {r : Response}
    (hh : s.host = i :: rest) (hp : s.port = .outstanding n r) (hr : i.rstN = true)
    (hready : n = 0 → i.rspReady = false) :
    step s = .next { s with port := .outstanding (n - 1) r, host := rest, pending := s.pending.or i.cmd } := by
  rw [step_cons s i rest hh]
  cases n with
  | zero =>
    rw [portEdge_offered _ i r hr]
    · simp [hready, hp]
    · exact hp
  | succ n => exact portEdge_waiting _ i n r hr hp

/-- A ready host takes the response at the edge that offers it (R42 (c)). -/
theorem step_takes_response {s : State} {i : PortIn} {rest : List PortIn} {r : Response}
    (hh : s.host = i :: rest) (hp : s.port = .outstanding 0 r) (hr : i.rstN = true) (hready : i.rspReady = true) :
    step s = .next { s with
      port := .idle, host := rest, pending := s.pending.or i.cmd, taken := s.taken ++ [r] } := by
  rw [step_cons s i rest hh, portEdge_offered _ i r hr]
  · simp [hready, State.takeResponse, hp]
  · exact hp

/-- Over any edges outside reset at which the host does not take the response once it is offered, the response is held, the
record stays, and the host comes to wait with the first word it chooses. -/
theorem run_outstanding (l : List PortIn) {s : State} {n : Nat} {r : Response} {rest : List PortIn}
    (hh : s.host = l ++ rest) (hp : s.port = .outstanding n r) (hr : ∀ i ∈ l, i.rstN = true)
    (hready : ∀ i ∈ l.drop n, i.rspReady = false) :
    Host.Core.run core l.length s = .next { s with
      port := .outstanding (n - l.length) r, host := rest, pending := s.pending.or (firstChosen l) } := by
  induction l generalizing s n with
  | nil =>
    obtain rfl : s.host = rest := hh
    simp [Host.Core.run, ← hp]
  | cons i l ih =>
    obtain ⟨hri, hrl⟩ := List.forall_mem_cons.mp hr
    have hstep := step_holds_response hh hp hri (by rintro rfl; exact hready i (by simp))
    have hlater : ∀ j ∈ l.drop (n - 1), j.rspReady = false := by
      cases n with
      | zero => exact fun j hj => hready j (List.mem_cons_of_mem i hj)
      | succ n => exact hready
    rw [List.length_cons, core_run_next hstep, ih rfl rfl hrl hlater]
    simp [Nat.sub_sub, Nat.add_comm 1, Option.or_assoc]

/-- An accepted word's response, held for the word's edges and for as long as the host delays, is then taken. -/
theorem run_until_taken {wait delay rest : List PortIn} {last : PortIn} {s : State} {r : Response}
    (hh : s.host = wait ++ delay ++ last :: rest) (hp : s.port = .outstanding wait.length r)
    (hr : ∀ i ∈ wait ++ delay, i.rstN = true) (hdelay : ∀ i ∈ delay, i.rspReady = false)
    (hrlast : last.rstN = true) (hlast : last.rspReady = true) :
    Host.Core.run core (wait.length + delay.length + 1) s = .next { s with
      port := .idle, host := rest, pending := s.pending.or (firstChosen (wait ++ delay ++ [last])),
      taken := s.taken ++ [r] } := by
  have hheld := run_outstanding (wait ++ delay) hh hp hr (by simpa using hdelay)
  rw [List.length_append, Nat.sub_add_eq, Nat.sub_self, Nat.zero_sub] at hheld
  rw [core_run_add 1 hheld, core_run_next (step_takes_response rfl rfl hrlast hlast)]
  simp [Host.Core.run, Option.or_assoc]

/-! ### The edges of each word (R9, R42 (e)) -/

theorem waitEdges_of_build {w : CmdWord} (h : decode w = .ok .build) : waitEdges w = Config.latBuildExtra := by
  simp [waitEdges, h]

theorem waitEdges_of_not_build {w : CmdWord} (h : decode w ≠ .ok .build) : waitEdges w = Config.latCmdExtra := by
  unfold waitEdges
  split
  · contradiction
  · rfl

/-! ### The statements -/

/-- Settles O44: the first edge accepts the word, the next ones hold its response, the last one takes it; the record and the
response are those of the atomic step, since both levels compute them from the same record. -/
theorem portRealisesAtomicCommand : Obligations.PortRealisesAtomicCommand := by
  intro s w first last wait delay rest hidle hword hhost hwait hrst hdelay hlast
  simp only [List.forall_mem_cons] at hrst
  obtain ⟨hfirst, hrlast, hrheld⟩ := hrst
  obtain ⟨b', r, hanswer⟩ := accept_transact_of_record w s.block
  have haccept := step_accepts hhost hidle hfirst hword
  rw [(hanswer { s with host := _, pending := none } rfl).1, ← hwait] at haccept
  rw [(hanswer { s with host := rest, pending := _ } rfl).2, ← hwait, core_run_next haccept,
    run_until_taken rfl rfl hrheld hdelay hrlast hlast]
  rfl

/-- Settles O39: by the two cases of `waitEdges`; an accepted word's response is outstanding for its edges. -/
theorem latencyOfEachWord : Obligations.LatencyOfEachWord := by
  refine ⟨Nat.succ_pos _, Nat.succ_pos _, fun w h => ?_, fun w h => ?_, fun s t w h => ?_⟩
  · rw [waitEdges_of_build h, Config.latBuild]
  · rw [waitEdges_of_not_build h, Config.latCmd]
  · obtain ⟨b', r, hanswer⟩ := accept_transact_of_record w s.block
    rw [(hanswer s rfl).1] at h
    cases h
    exact ⟨r, rfl⟩

end Sys2Proof.Machine

/-! ## The record: what each command makes of it, and what every step keeps (R13 to R25, R80 to R82)

The rejection matrix splits every command in two: rejected, it writes ERR and ERRCODE only (`exec_of_rejection`); accepted,
it leaves `acceptedRecord` and answers `acceptedData` (`exec_of_accepted`). The frame, the noninterference of an invalid
table and the invariant are each read off these two outcomes. -/

namespace Sys2Proof.Machine

/-! ### The two outcomes of a command -/

/-- The record an accepted command leaves (R54 to R63): a read and NOP leave it as it is. -/
def acceptedRecord (i : Instr) (b : Block) : Block :=
  match i with
  | .wrpoly p => { b with poly := p, tableValid := b.tableValid && p == b.poly }
  | .build => { b with table := fillTable (buildTable b.poly) b.table, tableValid := true }
  | .start => { b with acc := 0#32, active := true }
  | .stop => { b with active := false }
  | .ackerr => { b with err := false, errCode := 0#4 }
  | .clear => { b with acc := 0#32 }
  | .fold x => { b with acc := fold b.acc x (tableRead b.table) }
  | .final => { b with acc := ~~~ b.acc }
  | .nop | .rdacc | .rdpoly | .rdtab _ | .rdstat => b

/-- The data an accepted command answers (R48): the value read, or 0. -/
def acceptedData (i : Instr) (b : Block) : Word :=
  match i with
  | .rdacc => b.acc
  | .rdpoly => b.poly
  | .rdtab k => tableRead b.table k
  | .rdstat => statusWord b
  | .nop | .wrpoly _ | .build | .start | .stop | .ackerr | .clear | .fold _ | .final => 0#32

/-- The matrix of R82 is the checks of `exec`, in their order. -/
theorem exec_of_rejection {i : Instr} {s : State} {c : RejectCode} (h : rejection i s.block = some c) :
    exec i s = .next (s.rejected c) := by
  cases i with
  | nop | ackerr | clear | final | rdacc | rdpoly | rdstat => simp [rejection] at h
  | wrpoly p =>
    obtain ⟨hactive, rfl⟩ : s.block.active = true ∧ RejectCode.cfgActive = c := by simpa [rejection] using h
    simp [exec, execWrpoly, hactive]
  | build =>
    obtain ⟨hactive, rfl⟩ : s.block.active = true ∧ RejectCode.cfgActive = c := by simpa [rejection] using h
    simp [exec, execBuild, hactive]
  | start =>
    cases hactive : s.block.active with
    | true =>
      obtain rfl : RejectCode.badTransition = c := by simpa [rejection, hactive] using h
      simp [exec, execStart, hactive]
    | false =>
      obtain ⟨hvalid, rfl⟩ : s.block.tableValid = false ∧ RejectCode.noTable = c := by
        simpa [rejection, hactive] using h
      simp [exec, execStart, hactive, hvalid]
  | stop =>
    obtain ⟨hactive, rfl⟩ : s.block.active = false ∧ RejectCode.badTransition = c := by simpa [rejection] using h
    simp [exec, execStop, hactive]
  | fold x =>
    obtain ⟨hvalid, rfl⟩ : s.block.tableValid = false ∧ RejectCode.noTable = c := by simpa [rejection] using h
    simp [exec, execFold, hvalid]
  | rdtab k =>
    obtain ⟨hvalid, rfl⟩ : s.block.tableValid = false ∧ RejectCode.noTable = c := by simpa [rejection] using h
    simp [exec, execRdtab, hvalid]

/-- WRPOLY, BUILD and START are accepted in idle mode only (R54 to R56). -/
theorem idle_of_accepted {i : Instr} {b : Block} (h : rejection i b = none)
    (hi : (∃ p, i = .wrpoly p) ∨ i = .build ∨ i = .start) : b.active = false := by
  cases hactive : b.active with
  | false => rfl
  | true => obtain ⟨p, rfl⟩ | rfl | rfl := hi <;> simp [rejection, hactive] at h

/-- START, FOLD and RDTAB are accepted with a valid table only (R56, R62, R69). -/
theorem tableValid_of_accepted {i : Instr} {b : Block} (h : rejection i b = none)
    (hi : i = .start ∨ (∃ x, i = .fold x) ∨ ∃ k, i = .rdtab k) : b.tableValid = true := by
  obtain rfl | ⟨x, rfl⟩ | ⟨k, rfl⟩ := hi
  · simpa [rejection, idle_of_accepted h] using h
  · simpa [rejection] using h
  · simpa [rejection] using h

theorem exec_of_accepted {i : Instr} {s : State} (h : rejection i s.block = none) :
    exec i s = .next (s.answered (acceptedRecord i s.block) ⟨true, acceptedData i s.block⟩) := by
  cases i with
  | nop | ackerr | clear | final | rdacc | rdpoly | rdstat => rfl
  | wrpoly p =>
    have hidle := idle_of_accepted h (.inl ⟨p, rfl⟩)
    by_cases hp : p = s.block.poly
    · simp [exec, execWrpoly, hidle, hp, acceptedRecord, acceptedData]
    · simp [exec, execWrpoly, hidle, hp, acceptedRecord, acceptedData, beq_false_of_ne hp]
  | build => simp [exec, execBuild, idle_of_accepted h, acceptedRecord, acceptedData]
  | start =>
    simp [exec, execStart, idle_of_accepted h, tableValid_of_accepted h, acceptedRecord, acceptedData]
  | stop =>
    have hactive : s.block.active = true := by simpa [rejection] using h
    simp [exec, execStop, hactive, acceptedRecord, acceptedData]
  | fold x => simp [exec, execFold, tableValid_of_accepted h, acceptedRecord, acceptedData]
  | rdtab k => simp [exec, execRdtab, tableValid_of_accepted h, acceptedRecord, acceptedData]

/-- A command answers in one of two ways: rejected by the matrix of R82, or accepted. -/
theorem exec_cases (i : Instr) (s : State) :
    (∃ c, rejection i s.block = some c ∧ exec i s = .next (s.rejected c)) ∨
      (rejection i s.block = none ∧
        exec i s = .next (s.answered (acceptedRecord i s.block) ⟨true, acceptedData i s.block⟩)) := by
  cases hrej : rejection i s.block with
  | some c => exact .inl ⟨c, rfl, exec_of_rejection hrej⟩
  | none => exact .inr ⟨rfl, exec_of_accepted hrej⟩

/-- So does a command word, rejected also when it does not decode (R46, R80). -/
theorem command_cases (w : CmdWord) (s : State) :
    (∃ c, command w s = .next (s.rejected c)) ∨
      ∃ i, rejection i s.block = none ∧
        command w s = .next (s.answered (acceptedRecord i s.block) ⟨true, acceptedData i s.block⟩) := by
  cases hw : decode w with
  | error e => exact .inl ⟨.illegalCmd, by simp [command_eq_reject hw]⟩
  | ok i =>
    rw [command_eq_exec hw]
    exact (exec_cases i s).imp (fun ⟨c, _, hc⟩ => ⟨c, hc⟩) fun hacc => ⟨i, hacc⟩

/-! ### The frame of an accepted command -/

section
variable {i : Instr} {b : Block}

theorem acceptedRecord_poly (h : ∀ p, i ≠ .wrpoly p) : (acceptedRecord i b).poly = b.poly := by
  cases i with
  | wrpoly p => exact absurd rfl (h p)
  | _ => rfl

theorem acceptedRecord_table (h : i ≠ .build) : (acceptedRecord i b).table = b.table := by
  cases i with
  | build => contradiction
  | _ => rfl

theorem acceptedRecord_tableValid (hb : i ≠ .build) (hw : ∀ p, i ≠ .wrpoly p) :
    (acceptedRecord i b).tableValid = b.tableValid := by
  cases i with
  | build => contradiction
  | wrpoly p => exact absurd rfl (hw p)
  | _ => rfl

theorem acceptedRecord_acc (hc : i ≠ .clear) (hs : i ≠ .start) (hf : i ≠ .final) (hx : ∀ x, i ≠ .fold x) :
    (acceptedRecord i b).acc = b.acc := by
  cases i with
  | clear | start | final => contradiction
  | fold x => exact absurd rfl (hx x)
  | _ => rfl

theorem acceptedRecord_active (hs : i ≠ .start) (hp : i ≠ .stop) : (acceptedRecord i b).active = b.active := by
  cases i with
  | start | stop => contradiction
  | _ => rfl

theorem acceptedRecord_error (h : i ≠ .ackerr) :
    (acceptedRecord i b).err = b.err ∧ (acceptedRecord i b).errCode = b.errCode := by
  cases i with
  | ackerr => contradiction
  | _ => exact ⟨rfl, rfl⟩

end

/-- Settles O15: a rejection writes ERR and ERRCODE only, and an accepted command's record is kept register by register. -/
theorem registersKeptByOtherCommands : Obligations.RegistersKeptByOtherCommands := by
  intro i s t h
  obtain ⟨c, hrej, hexec⟩ | ⟨hacc, hexec⟩ := exec_cases i s
  · obtain rfl := Host.Outcome.next.inj (hexec.symm.trans h)
    simp [hrej, rejected_eq_answered]
  · obtain rfl := Host.Outcome.next.inj (hexec.symm.trans h)
    exact ⟨acceptedRecord_poly, fun hb k => by rw [State.answered_table, acceptedRecord_table hb],
      acceptedRecord_tableValid, acceptedRecord_acc, acceptedRecord_active, fun ha _ => acceptedRecord_error ha,
      by simp [hacc], rfl, rfl, rfl⟩

/-! ### Records no command tells apart (R15, R17) -/

namespace Block.Alike

variable {a b : Block}

/-- The checks read registers only. -/
theorem rejection_eq (h : a.Alike b) (i : Instr) : rejection i a = rejection i b := by
  simp only [rejection, h.active, h.tableValid]

/-- So does the status word. -/
theorem statusWord_eq (h : a.Alike b) : statusWord a = statusWord b := by
  simp only [statusWord, h.errCode, h.err, h.active, h.tableValid]

theorem tableRead_eq (h : a.Alike b) (hvalid : a.tableValid = true) : tableRead a.table = tableRead b.table :=
  funext (h.table hvalid)

/-- RDTAB, the one read of the table, is accepted with a valid table only. -/
theorem acceptedData_eq {i : Instr} (h : a.Alike b) (hi : rejection i a = none) :
    acceptedData i a = acceptedData i b := by
  cases i with
  | rdtab k => exact h.table (tableValid_of_accepted hi (.inr (.inr ⟨k, rfl⟩))) k
  | rdacc => exact h.acc
  | rdpoly => exact h.poly
  | rdstat => exact h.statusWord_eq
  | _ => rfl

theorem rejected (h : a.Alike b) (c : RejectCode) :
    Block.Alike { a with err := true, errCode := c.code } { b with err := true, errCode := c.code } :=
  { h with err := rfl, errCode := rfl }

/-- FOLD reads the table only where it is valid, and BUILD makes both tables `build_table(POLY)`. -/
theorem accepted {i : Instr} (h : a.Alike b) (ha : a.table.wf = true) (hb : b.table.wf = true)
    (hi : rejection i a = none) : (acceptedRecord i a).Alike (acceptedRecord i b) := by
  cases i with
  | nop | rdacc | rdpoly | rdtab | rdstat => exact h
  | wrpoly p =>
    have hvalid : (a.tableValid && p == a.poly) = (b.tableValid && p == b.poly) := by rw [h.tableValid, h.poly]
    exact { h with poly := rfl, tableValid := hvalid, table := fun hv => h.table (Bool.and_eq_true_iff.mp hv).1 }
  | build =>
    refine { h with tableValid := rfl, table := fun _ k => ?_ }
    calc tableRead (fillTable (buildTable a.poly) a.table) k
        = buildTable a.poly k := fillTable_read _ ha k
      _ = buildTable b.poly k := by rw [h.poly]
      _ = tableRead (fillTable (buildTable b.poly) b.table) k := (fillTable_read _ hb k).symm
  | start => exact { h with acc := rfl, active := rfl }
  | stop => exact { h with active := rfl }
  | ackerr => exact { h with err := rfl, errCode := rfl }
  | clear => exact { h with acc := rfl }
  | fold x =>
    have hread := h.tableRead_eq (tableValid_of_accepted hi (.inr (.inl ⟨x, rfl⟩)))
    exact { h with acc := by simp only [acceptedRecord, h.acc, hread] }
  | final => exact { h with acc := congrArg (~~~ ·) h.acc }

end Block.Alike

/-- Settles O22: both runs are rejected alike or accepted alike, since the checks see the registers only. -/
theorem invalidTableIsUnobservable : Obligations.InvalidTableIsUnobservable := by
  intro i s t h hs ht
  cases hrej : rejection i s.block with
  | some c => exact ⟨_, _, exec_of_rejection hrej, exec_of_rejection (h.rejection_eq i ▸ hrej), rfl, h.rejected c⟩
  | none =>
    exact ⟨_, _, exec_of_accepted hrej, exec_of_accepted (h.rejection_eq i ▸ hrej),
      by rw [State.answered_port, State.answered_port, h.acceptedData_eq hrej], h.accepted hs ht hrej⟩

/-! ### The status word (R22) -/

/-- The concatenation of R22 read at one bit: one field of one bit after the other, and ERRCODE above them. -/
theorem statusWord_getLsbD (b : Block) (k : Nat) : (statusWord b).getLsbD k =
    if k = 0 then b.tableValid else if k = 1 then b.active else if k = 2 then b.err else if k = 3 then false
    else b.errCode.getLsbD (k - 4) := by
  simp only [statusWord, BitVec.getLsbD_setWidth, BitVec.getLsbD_append]
  match k with
  | 0 | 1 | 2 | 3 => simp
  | k + 4 =>
    by_cases hk : k + 4 < 32
    · simp [hk]
    · have hout : b.errCode.getLsbD k = false := BitVec.getLsbD_of_ge _ _ (by omega)
      simp [hout]

theorem statusWord_getLsbD_errCode (b : Block) (k : Nat) :
    (statusWord b).getLsbD (4 + k) = b.errCode.getLsbD k := by
  have h : 4 + k ≠ 0 ∧ 4 + k ≠ 1 ∧ 4 + k ≠ 2 ∧ 4 + k ≠ 3 := by omega
  simp [statusWord_getLsbD, h]

/-- Settles O14: bit by bit, ERRCODE having no bit above its own four. -/
theorem statusWordLayout : Obligations.StatusWordLayout := by
  intro b
  refine ⟨statusWord_getLsbD b 0, statusWord_getLsbD b 1, statusWord_getLsbD b 2, statusWord_getLsbD b 3,
    BitVec.eq_of_getLsbD_eq fun k hk => ?_, BitVec.eq_of_getLsbD_eq fun k hk => ?_⟩
  · simp only [BitVec.getLsbD_extractLsb', hk, decide_true, Bool.true_and, statusWord_getLsbD_errCode]
  · have hout : (statusWord b).getLsbD (8 + k) = false := by
      rw [Nat.add_assoc 4 4 k, statusWord_getLsbD_errCode]
      exact BitVec.getLsbD_of_ge _ _ (by omega)
    simp [hout]

/-! ### The invariant of the record (R17, R21, R23) -/

/-- Every rejection's code is one of 1 to 4 (R81). -/
theorem RejectCode.code_range (c : RejectCode) : c.code.toNat ≤ 4 ∧ c.code ≠ 0#4 := by
  cases c <;> decide

namespace Block.Inv

/-- Reset's record: no table, idle, no error (R92). -/
theorem reset : Block.reset.Inv where
  tableCanonical := reset_table_wf
  tableMatches := nofun
  activeHasTable := nofun
  codeLegal := Nat.zero_le 4
  errIffCode := by decide

variable {b : Block}

theorem rejected (h : b.Inv) (c : RejectCode) : Block.Inv { b with err := true, errCode := c.code } :=
  { h with codeLegal := c.code_range.1, errIffCode := iff_of_true rfl c.code_range.2 }

/-- WRPOLY leaves a table valid only for the polynomial it was built from, and only while idle; BUILD makes the table. -/
theorem accepted {i : Instr} (h : b.Inv) (hi : rejection i b = none) : (acceptedRecord i b).Inv := by
  cases i with
  | nop | rdacc | rdpoly | rdtab | rdstat => exact h
  | clear | fold | final => exact { h with }
  | wrpoly p =>
    have hidle := idle_of_accepted hi (.inl ⟨p, rfl⟩)
    refine { h with tableMatches := fun hv => ?_, activeHasTable := fun hactive => ?_ }
    · obtain ⟨hvalid, hp⟩ : b.tableValid = true ∧ p = b.poly := by simpa [acceptedRecord] using hv
      exact hp ▸ h.tableMatches hvalid
    · exact absurd (hidle.symm.trans hactive) Bool.false_ne_true
  | build =>
    exact { h with
      tableCanonical := fillTable_wf _ h.tableCanonical
      tableMatches := fun _ => fillTable_read _ h.tableCanonical
      activeHasTable := fun _ => rfl }
  | start => exact { h with activeHasTable := fun _ => tableValid_of_accepted (b := b) hi (.inl rfl) }
  | stop => exact { h with activeHasTable := nofun }
  | ackerr => exact { h with codeLegal := Nat.zero_le 4, errIffCode := by simp [acceptedRecord] }

end Block.Inv

/-! ### The invariant of the state -/

/-- A response the port may hold beside a record: of R48's kind, and shown in ERR and ERRCODE if it is a rejection (R80). -/
def Response.FitsRecord (r : Response) (b : Block) : Prop :=
  r.Legal ∧ (r.ok = false → b.err = true ∧ r.data = zextCode b.errCode)

theorem Response.fitsRecord_accepted (v : Word) (b : Block) : Response.FitsRecord ⟨true, v⟩ b := ⟨nofun, nofun⟩

theorem Response.fitsRecord_rejected (c : RejectCode) (b : Block) :
    Response.FitsRecord ⟨false, zextCode c.code⟩ { b with err := true, errCode := c.code } :=
  ⟨fun _ => ⟨c, rfl⟩, fun _ => ⟨rfl, rfl⟩⟩

/-- The word at the port leaves a record of the invariant and a response that fits it. -/
theorem command_keeps_inv (w : CmdWord) {s : State} (h : s.block.Inv) :
    ∃ b r, command w s = .next (s.answered b r) ∧ b.Inv ∧ r.FitsRecord b := by
  obtain ⟨c, hc⟩ | ⟨i, hi, hc⟩ := command_cases w s
  · exact ⟨_, _, hc, h.rejected c, Response.fitsRecord_rejected c s.block⟩
  · exact ⟨_, _, hc, h.accepted hi, Response.fitsRecord_accepted _ _⟩

namespace State.Inv

variable {s : State}

theorem of_idle (hb : s.block.Inv) (ht : ∀ r ∈ s.taken, r.Legal) (hp : s.port = .idle) : s.Inv :=
  ⟨hb, ht, by simp [hp], by simp [hp]⟩

theorem of_outstanding {n : Nat} {r : Response} (hb : s.block.Inv) (ht : ∀ r ∈ s.taken, r.Legal)
    (hp : s.port = .outstanding n r) (hr : r.FitsRecord s.block) : s.Inv where
  block := hb
  takenLegal := ht
  portLegal := by rintro m q hq; obtain ⟨-, rfl⟩ := Port.outstanding.inj (hp.symm.trans hq); exact hr.1
  portError := by rintro m q hq; obtain ⟨-, rfl⟩ := Port.outstanding.inj (hp.symm.trans hq); exact hr.2

theorem fitsRecord {n : Nat} {r : Response} (h : s.Inv) (hp : s.port = .outstanding n r) : r.FitsRecord s.block :=
  ⟨h.portLegal n r hp, h.portError n r hp⟩

/-- The invariant speaks of the block and of the responses taken, and not of what the host is about to do. -/
theorem advanceHost (h : s.Inv) : s.advanceHost.Inv := { h with }

theorem resetEdge (h : s.Inv) : (resetEdge s).Inv := of_idle Block.Inv.reset h.takenLegal rfl

theorem takeResponse {r : Response} (h : s.Inv) (hp : s.port = .outstanding 0 r) : s.takeResponse.Inv := by
  have htaken : ∀ q ∈ s.taken ++ [r], q.Legal := by
    simpa [or_imp, forall_and] using ⟨h.takenLegal, h.portLegal 0 r hp⟩
  simpa [State.takeResponse, hp] using of_idle (s := { s with port := .idle, taken := s.taken ++ [r] }) h.block htaken rfl

theorem waitLess {n : Nat} {r : Response} (h : s.Inv) (hp : s.port = .outstanding (n + 1) r) :
    (s.setPort (.outstanding n r)).Inv := of_outstanding h.block h.takenLegal rfl (h.fitsRecord hp)

theorem accept {t : State} {w : CmdWord} (h : s.Inv) (ht : accept w s = .next t) : t.Inv := by
  obtain ⟨b, r, hc, hb, hr⟩ := command_keeps_inv w h.block
  obtain rfl : { s with block := b, port := .outstanding (waitEdges w) r } = t := by simpa [Machine.accept, hc] using ht
  exact of_outstanding hb h.takenLegal rfl hr

end State.Inv

/-- One edge of each kind: reset, a word accepted or none, a response awaited, offered or taken (R42, R92). -/
theorem portEdge_keeps_inv {i : PortIn} {s t : State} (h : s.Inv) (ht : portEdge i s = .next t) : t.Inv := by
  cases hr : i.rstN with
  | false =>
    obtain rfl := Host.Outcome.next.inj ((portEdge_reset s i hr).symm.trans ht)
    exact h.resetEdge
  | true =>
    match hp : s.port, hw : s.pending with
    | .idle, some w =>
      have hpending : (s.setPending none).Inv := { h with }
      exact hpending.accept ((portEdge_idle_offer s i w hr hw hp).symm.trans ht)
    | .idle, none =>
      obtain rfl := Host.Outcome.next.inj ((portEdge_idle_quiet s i hr hw hp).symm.trans ht)
      exact h
    | .outstanding (n + 1) r, _ =>
      obtain rfl := Host.Outcome.next.inj ((portEdge_waiting s i n r hr hp).symm.trans ht)
      exact h.waitLess hp
    | .outstanding 0 r, _ =>
      rw [portEdge_offered s i r hr hp] at ht
      split at ht
      · exact Host.Outcome.next.inj ht ▸ h.takeResponse hp
      · exact Host.Outcome.next.inj ht ▸ h

/-- Settles O33: reset's record satisfies the invariant, with no command outstanding and no response taken. -/
theorem resetSatisfiesInvariant : Obligations.ResetSatisfiesInvariant :=
  .of_idle .reset nofun rfl

/-- Settles O34: a step is one edge, the host having moved on. -/
theorem stepKeepsInvariant : Obligations.StepKeepsInvariant :=
  fun _ _ h hstep => portEdge_keeps_inv h.advanceHost hstep

end Sys2Proof.Machine

/-! ## Commands one at a time, in order (R35 (e), R37, R98)

A command's word decodes to the command (`decode_encode`), so a run of commands performs each on the record the one before
left and takes its response (`run_commandRun_cons`). -/

namespace Sys2Proof.Machine

/-! ### A run of commands -/

/-- The opcode field selects the command's row, and its operand obeys the row's form (R43 to R46). -/
theorem decode_encode (i : Instr) : decode (encode i) = .ok i := by
  cases i with
  | nop | build | start | stop | ackerr | clear | final | rdacc | rdpoly | rdstat => rfl
  | wrpoly v => simp [encode, decode, Instr.opcode, Instr.operand, checkForm_ok, Form.operandOk]
  | fold b | rdtab b =>
    have hform := Laws.WordFields.imm8_operandOk b
    simp [encode, decode, Instr.opcode, Instr.operand, imm8Field_eq, checkForm_ok, hform]

@[simp] theorem command_encode (i : Instr) : command (encode i) = exec i := command_eq_exec (decode_encode i)

@[simp] theorem run_commandRun_nil (s : State) : run (commandRun []) s = .next s := rfl

/-- A run of commands performs the first, takes its response, and runs the rest on the record it left (R37). -/
theorem run_commandRun_cons {i : Instr} {s : State} {b : Block} {r : Response} (is : List Instr)
    (h : exec i s = .next (s.answered b r)) :
    run (commandRun (i :: is)) s =
      run (commandRun is) { s with block := b, port := .idle, taken := s.taken ++ [r] } := by
  simp [commandRun, run, runStep, transact, h]

/-- Settles O45: the second command answers from the record the first left, whatever the port and the host then hold. -/
theorem twoCommandsTakeEffectInOrder : Obligations.TwoCommandsTakeEffectInOrder := by
  intro i j s
  obtain ⟨b, p, hfirst⟩ := exec_answersFromRecord i s.block
  obtain ⟨b', q, hsecond⟩ := exec_answersFromRecord j b
  refine ⟨_, _, p, q, hfirst s rfl, rfl, hsecond _ rfl, rfl, ?_⟩
  rw [run_commandRun_cons [j] (hfirst s rfl), run_commandRun_cons [] (hsecond _ rfl)]
  simp

/-! ### The reads (R35 (e)) -/

/-- Settles O20: an accepted read leaves the record as it is, so what it answers from that record it answers again. -/
theorem readsRepeat : Obligations.ReadsRepeat := by
  intro i s hread haccepted
  have hkeeps (b : Block) : acceptedRecord i b = b := by
    obtain rfl | rfl | ⟨k, rfl⟩ | rfl := hread <;> rfl
  refine ⟨acceptedData i s.block, ?_, fun t ht => ?_⟩
  · rw [exec_of_accepted haccepted, hkeeps]
  · rw [exec_of_accepted (ht ▸ haccepted), hkeeps, ht]

end Sys2Proof.Machine

/-! ## The encoding: the decoder is the match and mask table (R43 to R47)

A row of R46 is its opcode and its form: the row accepts a word exactly when the opcode field is the row's and the operand
obeys the form (`OpRow.accepts_iff`), and the decoder checks that form for that opcode (`decode_of_row`). The round trip, the
table and the reserved opcodes are each read off `decode_cases`. -/

namespace Sys2Proof

/-! ### A row as an opcode and a form -/

/-- The operand bits a form wants 0: the low 32 bits of R46's masks. -/
def Form.mask : Form → Word
  | .none => BitVec.allOnes 32
  | .imm8 => BitVec.allOnes 24 ++ 0#8
  | .imm32 => 0#32

/-- An operand obeys its form exactly when no masked bit is set (R44, R46). -/
theorem Form.operandOk_iff_mask (f : Form) (v : Word) : f.operandOk v = true ↔ v &&& f.mask = 0#32 := by
  cases f with
  | none => rw [operandOk, mask, beq_iff_eq, BitVec.and_allOnes]
  | imm8 =>
    have hv : v.extractLsb' 8 24 ++ v.extractLsb' 0 8 = v := by
      simpa using BitVec.extractLsb'_append_extractLsb'_eq_extractLsb' (x := v) (len₂ := 24) (Nat.zero_add 8).symm
    have hmasked : v &&& mask .imm8 = v.extractLsb' 8 24 ++ 0#8 := by
      conv_lhs => rw [← hv, mask, BitVec.and_append, BitVec.and_allOnes, BitVec.and_zero]
    rw [operandOk, beq_iff_eq, hmasked]
    exact (BitVec.append_left_inj 0#8).symm
  | imm32 => simp [operandOk, mask]

/-- The opcode of a row's command (R45): it does not depend on the operand. -/
def OpRow.opcode (r : OpRow) : Byte := (r.toInstr 0#32).opcode

/-- The form of a row's command (R45): nor does the form. -/
def OpRow.form (r : OpRow) : Form := (r.toInstr 0#32).form

theorem pattern_mask_of_row :
    ∀ r ∈ opTable, r.pattern = r.opcode ++ 0#32 ∧ r.mask = BitVec.allOnes 8 ++ r.form.mask := by decide

theorem opTable_opcodes_distinct : opTable.Pairwise fun a b => a.opcode ≠ b.opcode := by decide

/-- Two words are equal when their opcode fields and their operand fields are (R43). -/
theorem word_append_inj {op op' : Byte} {v v' : Word} : op ++ v = op' ++ v' ↔ op = op' ∧ v = v' :=
  ⟨fun h => ⟨by simpa using congrArg opField h, by simpa using congrArg operandField h⟩, by rintro ⟨rfl, rfl⟩; rfl⟩

/-- The match and mask test of R46 is a test of the opcode field and of the form. -/
theorem OpRow.accepts_iff {r : OpRow} (hr : r ∈ opTable) (w : CmdWord) :
    r.accepts w = true ↔ opField w = r.opcode ∧ r.form.operandOk (operandField w) = true := by
  obtain ⟨hpattern, hmask⟩ := pattern_mask_of_row r hr
  have hmasked : w &&& r.mask = opField w ++ (operandField w &&& r.form.mask) := by
    conv_lhs => rw [word_eq_fields w, hmask, BitVec.and_append, BitVec.and_allOnes]
  rw [OpRow.accepts, beq_iff_eq, hpattern, hmasked, word_append_inj, Form.operandOk_iff_mask]

/-! ### What the decoder answers -/

theorem Form.none_operandOk_iff (v : Word) : Form.none.operandOk v = true ↔ v = 0#32 := by
  rw [operandOk, beq_iff_eq]

/-- A row's command carries the whole of an operand that obeys the row's form. -/
theorem encode_of_row {r : OpRow} (hr : r ∈ opTable) {v : Word} (hv : r.form.operandOk v = true) :
    encode (r.toInstr v) = r.opcode ++ v := by
  revert r
  simp only [opTable, List.forall_mem_cons, OpRow.form, OpRow.opcode, Instr.form, encode, Instr.opcode, Instr.operand]
  simp +contextual [Form.none_operandOk_iff, imm8_operand_eq]

/-- The decoder checks the form of the row whose opcode the word has (R45). -/
theorem decode_of_row {r : OpRow} (hr : r ∈ opTable) {w : CmdWord} (hop : opField w = r.opcode) :
    decode w = checkForm r.form w (r.toInstr (operandField w)) := by
  revert r
  simp only [opTable, List.forall_mem_cons, OpRow.form, OpRow.opcode, Instr.form, Instr.opcode]
  simp +contextual [decode, imm8Field_eq]

/-- With the opcode of no row, the decoder comes to its last case (R47). -/
theorem decode_of_no_row {w : CmdWord} (h : ∀ r ∈ opTable, opField w ≠ r.opcode) :
    decode w = .error (.reservedOpcode (opField w)) := by
  simp only [opTable, List.forall_mem_cons, OpRow.opcode, Instr.opcode] at h
  unfold decode
  split
  case h_14 => rfl
  all_goals simp_all

/-- The opcode field decides: a row's form is checked, or the opcode is reserved (R46, R47). -/
theorem decode_cases (w : CmdWord) :
    (∃ r ∈ opTable, opField w = r.opcode ∧ decode w = checkForm r.form w (r.toInstr (operandField w))) ∨
      ((∀ r ∈ opTable, opField w ≠ r.opcode) ∧ decode w = .error (.reservedOpcode (opField w))) := by
  by_cases h : ∃ r ∈ opTable, opField w = r.opcode
  · obtain ⟨r, hr, hop⟩ := h
    exact .inl ⟨r, hr, hop, decode_of_row hr hop⟩
  · push Not at h
    exact .inr ⟨h, decode_of_no_row h⟩

/-- A word that decodes is the word of its row's command. -/
theorem encode_of_decode {w : CmdWord} {i : Instr} (h : decode w = .ok i) : encode i = w := by
  obtain ⟨r, hr, hop, hdecode⟩ | ⟨-, hdecode⟩ := decode_cases w
  · obtain ⟨hok, rfl⟩ := checkForm_ok.mp (hdecode.symm.trans h)
    rw [encode_of_row hr hok, ← hop, ← word_eq_fields]
  · simp [hdecode] at h

/-- A word that no row accepts does not decode. -/
theorem decode_error_of_no_accepts {w : CmdWord} (h : ∀ r ∈ opTable, r.accepts w = false) :
    ∃ e, decode w = .error e := by
  obtain ⟨r, hr, hop, hdecode⟩ | ⟨-, hdecode⟩ := decode_cases w
  · have hbad : r.form.operandOk (operandField w) = false := by
      simpa [hop, h r hr] using (OpRow.accepts_iff hr w).not
    exact ⟨_, hdecode.trans (checkForm_error.mpr ⟨hbad, rfl⟩)⟩
  · exact ⟨_, hdecode⟩

/-! ### The reserved opcodes -/

/-- The reserved opcodes of R47. -/
def ReservedOpcode (op : Byte) : Prop :=
  (0x06 ≤ op.toNat ∧ op.toNat ≤ 0x0F) ∨ (0x13 ≤ op.toNat ∧ op.toNat ≤ 0x1F) ∨ 0x24 ≤ op.toNat

/-- The reserved opcodes are those of no row. -/
theorem reservedOpcode_iff (op : Byte) : ReservedOpcode op ↔ ∀ r ∈ opTable, op ≠ r.opcode := by
  simp only [ReservedOpcode, opTable, List.forall_mem_cons, OpRow.opcode, Instr.opcode, List.not_mem_nil,
    false_implies, implies_true, and_true]
  bv_omega

/-- The decoder names an opcode reserved exactly when the word's own opcode is one of R47's. -/
theorem decode_eq_reserved_iff (w : CmdWord) (op : Byte) :
    decode w = .error (.reservedOpcode op) ↔ opField w = op ∧ ReservedOpcode op := by
  rw [reservedOpcode_iff]
  constructor
  · intro h
    obtain ⟨r, hr, -, hdecode⟩ | ⟨hno, hdecode⟩ := decode_cases w
    · simpa using (checkForm_error.mp (hdecode.symm.trans h)).2
    · obtain rfl : opField w = op := by simpa [hdecode] using h
      exact ⟨rfl, hno⟩
  · rintro ⟨rfl, hno⟩
    exact decode_of_no_row hno

end Sys2Proof

namespace Sys2Proof.Machine

/-! ### The statements -/

/-- Settles O23: the model's decoder reads back every operand bit that the encoder writes. -/
theorem decodeOfEncode : Obligations.DecodeOfEncode := decode_encode

/-- Settles O24: the row that decodes the word carries its opcode and the whole of its operand. -/
theorem encodeOfDecode : Obligations.EncodeOfDecode := fun _ _ => encode_of_decode

/-- Settles O25: a row accepts by opcode and form, which is what the decoder checks; the rows' opcodes are distinct. -/
theorem decodeIsMatchAndMask : Obligations.DecodeIsMatchAndMask := by
  refine fun w => ⟨fun r hr haccepts => ?_, ?_, fun hnone => ?_⟩
  · obtain ⟨hop, hok⟩ := (OpRow.accepts_iff hr w).mp haccepts
    exact (decode_of_row hr hop).trans (checkForm_ok.mpr ⟨hok, rfl⟩)
  · refine opTable_opcodes_distinct.imp_of_mem fun ha hb hne ⟨hacca, haccb⟩ => hne ?_
    exact ((OpRow.accepts_iff ha w).mp hacca).1.symm.trans ((OpRow.accepts_iff hb w).mp haccb).1
  · obtain ⟨e, he⟩ := decode_error_of_no_accepts hnone
    exact ⟨⟨e, he⟩, fun s => by rw [command_eq_reject he, reject_answers]⟩

/-- Settles O26: the reserved opcodes are those of no row, and only such a word is refused as reserved. -/
theorem reservedOpcodesRejected : Obligations.ReservedOpcodesRejected := by
  refine ⟨fun w s hreserved => ?_, fun w op h => ((decode_eq_reserved_iff w op).mp h).2⟩
  have hdecode := (decode_eq_reserved_iff w _).mpr ⟨rfl, hreserved⟩
  exact ⟨hdecode, by rw [command_eq_reject hdecode, reject_answers]⟩

/-- Settles O27: the words of DV-DEC, each decoded. -/
theorem specWordsDecode : Obligations.SpecWordsDecode := ⟨rfl, rfl, rfl, rfl, rfl, rfl, rfl⟩

/-- Settles O19: rejected by the matrix of R82 or accepted, a command answers the data of its kind. -/
theorem everyCommandAnswersOnce : Obligations.EveryCommandAnswersOnce := by
  refine ⟨fun i s => ?_, fun w i s h => by rw [command_eq_exec h], fun w e s h => ?_⟩
  · obtain ⟨c, hrej, hexec⟩ | ⟨hacc, hexec⟩ := exec_cases i s
    · exact ⟨_, _, hexec, rfl, by rw [hrej]; rfl⟩
    · refine ⟨_, _, hexec, rfl, ?_⟩
      rw [hacc]
      cases i <;> rfl
  · rw [command_eq_reject h]
    exact ⟨_, rfl, rfl⟩

end Sys2Proof.Machine

/-! ## The port edge by edge (R42, R95, R99)

An edge outside reset is one of the four of `step_accepts`, `portEdge_idle_quiet`, `portEdge_waiting` and `portEdge_offered`;
each statement reads the responses off them. -/

namespace Sys2Proof.Machine

/-- Settles O36: the edge accepts the word, which decodes. -/
theorem stepRunsDecodedCommand : Obligations.StepRunsDecodedCommand := by
  intro s j rest w i hhost hrst hword hidle hdecode
  rw [step_accepts hhost hidle hrst hword, accept, command_eq_exec hdecode]

/-- Settles O37: the edge accepts the word, which is rejected; it is not BUILD, so its response waits `LAT_CMD`. -/
theorem stepRejectsIllegalWord : Obligations.StepRejectsIllegalWord := by
  intro s j rest w e hhost hrst hword hidle hdecode
  have hwait : waitEdges w = Config.latCmdExtra := waitEdges_of_not_build (by simp [hdecode])
  rw [step_accepts hhost hidle hrst hword, accept, command_eq_reject hdecode, hwait]
  rfl

/-- The port offers a response outside reset exactly when no edge is left to wait (R42 (c)). -/
theorem rspOffered_eq_some {s : State} {r : Response} : rspOffered s true = some r ↔ s.port = .outstanding 0 r := by
  match hp : s.port with
  | .idle => simp [rspOffered, hp]
  | .outstanding 0 q => simp [rspOffered, hp]
  | .outstanding (n + 1) q => simp [rspOffered, hp]

/-- Settles O41: the edge finds the response offered and the host not ready. -/
theorem offeredResponseStays : Obligations.OfferedResponseStays := by
  intro s r hoffered hrst hready
  have hport := rspOffered_eq_some.mp hoffered
  refine ⟨?_, rspOffered_eq_some.mpr hport⟩
  rw [step, portEdge_offered s.advanceHost s.nextInput r hrst hport, hready]
  rfl

/-- Settles O40: by the four kinds of edge; only an accepted word makes a response outstanding, and only a ready host takes
it. -/
theorem everyAcceptedCommandOneResponse : Obligations.EveryAcceptedCommandOneResponse := by
  intro s t hrst hstep
  unfold step at hstep
  rw [State.offered_eq, hrst]
  match hp : s.port, hw : s.chosen with
  | .idle, some w =>
    obtain ⟨b, r, hanswer⟩ := accept_transact_of_record w s.block
    rw [portEdge_idle_offer s.advanceHost _ w hrst hw hp, (hanswer (s.advanceHost.setPending none) rfl).1] at hstep
    cases hstep
    simp [cmdReady, rspOffered, hp, Port.count]
  | .idle, none =>
    rw [portEdge_idle_quiet s.advanceHost _ hrst hw hp] at hstep
    cases hstep
    simp [rspOffered, hp]
  | .outstanding (n + 1) r, _ =>
    rw [portEdge_waiting s.advanceHost _ n r hrst hp] at hstep
    cases hstep
    simp [cmdReady, rspOffered, hp, Port.count]
  | .outstanding 0 r, _ =>
    rw [portEdge_offered s.advanceHost _ r hrst hp] at hstep
    cases hready : s.nextInput.rspReady with
    | true =>
      rw [hready] at hstep
      cases hstep
      simp [State.takeResponse, cmdReady, rspOffered, hp, Port.count]
    | false =>
      rw [hready] at hstep
      cases hstep
      simp [cmdReady, rspOffered, hp, Port.count]

/-- Settles O43: a ready host takes the response at the first edge that offers it, the word waiting unchanged meanwhile, and
the port, idle again, accepts that word at the edge after. -/
theorem heldOfferAcceptedAfterResponse : Obligations.HeldOfferAcceptedAfterResponse := by
  intro s n r w l rest last hport hpending hhost hlength hl hlast
  obtain ⟨wait, taker, rfl⟩ : ∃ wait taker, l = wait ++ [taker] :=
    (List.eq_nil_or_concat' l).resolve_left (by rintro rfl; simp at hlength)
  obtain rfl : wait.length = n := by simpa using hlength
  simp only [List.forall_mem_append, List.forall_mem_singleton] at hl
  obtain ⟨hwait, htaker, htaken⟩ := hl
  have htake : Host.Core.run core (wait.length + 1) s = .next { s with
      port := .idle, host := last :: rest, pending := some w, taken := s.taken ++ [r] } := by
    have hrun := run_until_taken (delay := []) (last := taker) (rest := last :: rest) (by simpa using hhost) hport
      (by simpa using fun i hi => (hwait i hi).1) nofun htaker htaken
    simpa [hpending] using hrun
  have haccept : step { s with port := .idle, host := last :: rest, pending := some w, taken := s.taken ++ [r] } =
      accept w { s with port := .idle, host := rest, pending := none, taken := s.taken ++ [r] } :=
    step_accepts rfl rfl hlast rfl
  obtain ⟨b, q, hanswer⟩ := accept_transact_of_record w s.block
  rw [(hanswer { s with port := .idle, host := rest, pending := none, taken := s.taken ++ [r] } rfl).1] at haccept ⊢
  rw [core_run_add 1 htake, core_run_next haccept]
  rfl

end Sys2Proof.Machine

/-! ## The assembler and the pseudo-instructions (R50, R51)

A list of commands is accepted when each command is, on the record the ones before left (`allAccepted_cons`). -/

namespace Sys2Proof.Machine

/-- A run of commands always completes, and its record and responses depend on the record it starts from alone. -/
theorem run_commandRun_answers (is : List Instr) (b : Block) : ∃ b' rs, ∀ s : State, s.block = b →
    ∃ p, run (commandRun is) s = .next { s with block := b', port := p, taken := s.taken ++ rs } := by
  induction is generalizing b with
  | nil => exact ⟨b, [], by rintro s rfl; exact ⟨s.port, by simp⟩⟩
  | cons i is ih =>
    obtain ⟨b₁, r, hfirst⟩ := exec_answersFromRecord i b
    obtain ⟨b₂, rs, hrest⟩ := ih b₁
    refine ⟨b₂, r :: rs, fun s hs => ?_⟩
    obtain ⟨p, hp⟩ := hrest { s with block := b₁, port := .idle, taken := s.taken ++ [r] } rfl
    exact ⟨p, by rw [run_commandRun_cons is (hfirst s hs), hp]; simp⟩

@[simp] theorem allAccepted_nil (s : State) : allAccepted [] s = true := rfl

/-- A list of commands is accepted when its first response is ok and the rest are accepted, on the record the first leaves. -/
theorem allAccepted_cons_of_answers {i : Instr} {s : State} {b : Block} {r : Response} (is : List Instr)
    (h : exec i { s with taken := [] } = .next (State.answered { s with taken := [] } b r)) :
    allAccepted (i :: is) s = (r.ok && allAccepted is { s with block := b }) := by
  obtain ⟨b', rs, hrest⟩ := run_commandRun_answers is b
  obtain ⟨p, hp⟩ := hrest { s with block := b, port := .idle, taken := [r] } rfl
  obtain ⟨q, hq⟩ := hrest { s with block := b, taken := [] } rfl
  rw [allAccepted, run_commandRun_cons is h, allAccepted]
  simp [hp, hq]

/-- The checks of R82 decide the first response. -/
theorem allAccepted_cons (i : Instr) (is : List Instr) (s : State) : allAccepted (i :: is) s =
    ((rejection i s.block).isNone && allAccepted is { s with block := acceptedRecord i s.block }) := by
  obtain ⟨c, hrej, hexec⟩ | ⟨hacc, hexec⟩ := exec_cases i { s with taken := [] }
  · simp [allAccepted_cons_of_answers is hexec, hrej]
  · simp [allAccepted_cons_of_answers is hexec, hacc]

/-- FOLDs, before commands accepted anywhere, want a valid table unless there are none (R62). -/
theorem allAccepted_folds_append {is : List Instr} (his : ∀ s, allAccepted is s = true) (bs : List Byte) (s : State) :
    allAccepted (bs.map .fold ++ is) s = (s.block.tableValid || bs.isEmpty) := by
  induction bs generalizing s with
  | nil => simp [his]
  | cons b bs ih =>
    rw [List.map_cons, List.cons_append, allAccepted_cons, ih]
    cases hvalid : s.block.tableValid <;> simp [rejection, acceptedRecord, hvalid]

/-- A segment before commands accepted anywhere: CLEAR and FINAL are accepted in every mode, with or without a table. -/
theorem allAccepted_segCommands_append {is : List Instr} (his : ∀ s, allAccepted is s = true) (bs : List Byte)
    (s : State) : allAccepted (segCommands bs ++ is) s = (s.block.tableValid || bs.isEmpty) := by
  have hfinal (t : State) : allAccepted (.final :: is) t = true := by simp [allAccepted_cons, rejection, his]
  have hfolds := allAccepted_folds_append hfinal bs { s with block := acceptedRecord .clear s.block }
  simpa [segCommands, allAccepted_cons, rejection, acceptedRecord] using hfolds

/-- Settles O50: WRPOLY and BUILD are accepted in idle mode only, and WRPOLY keeps the mode; a segment is as its FOLDs. -/
theorem pseudoInstructionsSucceed : Obligations.PseudoInstructionsSucceed := by
  have hrdacc (t : State) : allAccepted [.rdacc] t = true := by simp [allAccepted_cons, rejection]
  refine fun s => ⟨fun p => ?_, fun bs => ?_, fun bs => allAccepted_segCommands_append hrdacc bs s⟩
  · simp only [expand, allAccepted_cons]
    cases hactive : s.block.active <;> simp [rejection, acceptedRecord, hactive]
  · simpa [expand] using allAccepted_segCommands_append allAccepted_nil bs s

/-- What is mapped to an answer without error was one. -/
theorem exists_of_map_eq_ok {α β ε : Type} {f : α → β} {x : Except ε α} {b : β} (h : x.map f = .ok b) :
    ∃ a, f a = b := by
  cases x with
  | ok a => exact ⟨a, Except.ok.inj h⟩
  | error e => contradiction

/-- Every line assembles to the words of a list of commands (R50, R51). -/
theorem assembleLine_words {line : List Char} {ws : List CmdWord} (h : assembleLine line = .ok ws) :
    ∃ is : List Instr, is.map encode = ws := by
  unfold assembleLine at h
  split at h
  · exact ⟨[], Except.ok.inj h⟩
  · dsimp only at h
    split at h
    · exact exists_of_map_eq_ok h
    · contradiction

/-- Settles O58: a line gives words of commands, and a command's word decodes to the command. -/
theorem assembledWordsDecode : Obligations.AssembledWordsDecode := by
  intro line ws h w hw
  obtain ⟨is, rfl⟩ := assembleLine_words h
  obtain ⟨i, -, rfl⟩ := List.mem_map.mp hw
  exact ⟨i, decode_encode i, rfl⟩

/-- Settles O59: the lines of R50, assembled. -/
theorem assemblerExamples : Obligations.AssemblerExamples := by
  unfold Obligations.AssemblerExamples
  decide

end Sys2Proof.Machine

/-! ## The configuration commands and the table generator (R53 to R59)

Each command's checks are its row of the matrix of R82, so its accepted and rejected clauses are read off
`exec_of_accepted` and `exec_of_rejection`. A round of the generator is linear in the register, hence so is the table in its
index (`crcRounds_xor`). -/

namespace Sys2Proof

/-! ### Illegal operands -/

/-- Every command has its row in the table of R46. -/
theorem exists_row_of_instr (i : Instr) : ∃ r ∈ opTable, r.opcode = i.opcode ∧ r.form = i.form := by
  cases i <;> simp [opTable, OpRow.opcode, OpRow.form, Instr.opcode, Instr.form]

/-- A command's opcode with an operand its form does not allow is no command (R44, R47). -/
theorem decode_opcode_append_of_not_operandOk {i : Instr} {operand : Word}
    (h : i.form.operandOk operand = false) : decode (i.opcode ++ operand) = .error (.operandBits i.opcode operand) := by
  obtain ⟨r, hr, hop, hform⟩ := exists_row_of_instr i
  rw [decode_of_row hr (by rw [opField_append, hop]), hform, checkForm_error, operandField_append, opField_append]
  exact ⟨h, rfl⟩

end Sys2Proof

namespace Sys2Proof.Machine

/-- A command without an operand is illegal with a non-zero one (R44, R46). -/
theorem command_of_nonzero_operand {i : Instr} (hform : i.form = .none) {operand : Word} (h : operand ≠ 0#32)
    (s : State) : command (i.opcode ++ operand) s = .next (s.rejected .illegalCmd) := by
  have hbad : i.form.operandOk operand = false := by
    rw [hform, ← Bool.not_eq_true, Form.none_operandOk_iff]
    exact h
  rw [command_eq_reject (decode_opcode_append_of_not_operandOk hbad), reject_answers]

/-! ### The table generator (R52, R53) -/

/-- What a round XORs in, the polynomial or nothing, by the bit shifted out (R52). -/
theorem crcRound_eq_xor_ite (p r : Word) : crcRound p r = (r <<< 1) ^^^ (if r.getLsbD 31 then p else 0#32) := by
  rw [crcRound]
  split
  · rfl
  · exact BitVec.xor_zero.symm

/-- Of two registers that both shift a 1 out, the two polynomials XORed in cancel. -/
theorem crcRound_xor (p r r' : Word) : crcRound p (r ^^^ r') = crcRound p r ^^^ crcRound p r' := by
  have hpoly : (if (r ^^^ r').getLsbD 31 then p else 0#32) =
      (if r.getLsbD 31 then p else 0#32) ^^^ (if r'.getLsbD 31 then p else 0#32) := by
    rw [BitVec.getLsbD_xor]
    cases r.getLsbD 31 <;> cases r'.getLsbD 31 <;> simp
  simp only [crcRound_eq_xor_ite, hpoly, BitVec.shiftLeft_xor_distrib]
  ac_rfl

theorem crcRounds_xor (p : Word) (n : Nat) (r r' : Word) :
    crcRounds p n (r ^^^ r') = crcRounds p n r ^^^ crcRounds p n r' := by
  induction n generalizing r r' with
  | zero => rfl
  | succ n ih => rw [crcRounds, crcRound_xor, ih]; rfl

/-- With polynomial 0 a round only shifts. -/
theorem crcRounds_zero_poly (n : Nat) (r : Word) : crcRounds 0#32 n r = r <<< n := by
  induction n generalizing r with
  | zero => simp [crcRounds]
  | succ n ih =>
    have hround : crcRound 0#32 r = r <<< 1 := by simp [crcRound]
    rw [crcRounds, hround, ih, ← BitVec.shiftLeft_add, Nat.add_comm]

theorem buildTable_xor (p : Word) (i j : Byte) : buildTable p (i ^^^ j) = buildTable p i ^^^ buildTable p j := by
  simp only [buildTable, zextByte, BitVec.setWidth_xor, BitVec.shiftLeft_xor_distrib, crcRounds_xor]

/-- Entry 0 is its own double under XOR, so it is 0. -/
theorem buildTable_zero (p : Word) : buildTable p 0#8 = 0#32 := by
  have hdouble := buildTable_xor p 0#8 0#8
  rwa [BitVec.xor_self, BitVec.xor_self] at hdouble

/-- Byte 1 reaches bit 31 after 7 shifts, and the eighth round XORs the polynomial in once (R53 (b)). -/
theorem buildTable_one (p : Word) : buildTable p 1#8 = p :=
  calc buildTable p 1#8
      = crcRound p 0x80000000#32 := by simp [buildTable, crcRounds, crcRound, zextByte, Config.initialShift]
    _ = p := by simp [crcRound]

/-- With polynomial 0 all 8 bits of the index are shifted out. -/
theorem buildTable_zero_poly (i : Byte) : buildTable 0#32 i = 0#32 := by
  rw [buildTable, crcRounds_zero_poly, ← BitVec.shiftLeft_add]
  exact BitVec.shiftLeft_eq_zero le_rfl

/-- Settles O28: the laws from the linearity of a round; the listed entries evaluated. -/
theorem buildTableLaws : Obligations.BuildTableLaws :=
  ⟨buildTable_zero, buildTable_one, buildTable_xor, buildTable_zero_poly, rfl, rfl, rfl, rfl, rfl⟩

/-! ### The commands (R54 to R59) -/

/-- Settles O3: the accepted BUILD fills the table; a valid one already holds these entries (R17), in the one canonical form. -/
theorem buildBuildsTable : Obligations.BuildBuildsTable := by
  refine fun s => ⟨rfl, fun hidle => ⟨fillTable (buildTable s.block.poly) s.block.table, ?_, fillTable_read _, ?_⟩,
    fun hactive => exec_of_rejection (by simp [rejection, hactive])⟩
  · exact exec_of_accepted (by simp [rejection, hidle])
  · intro hinv hvalid
    have hwf := hinv.tableCanonical
    exact table_eq_of_read (fillTable_wf _ hwf) hwf fun i =>
      (fillTable_read _ hwf i).trans (hinv.tableMatches hvalid i).symm

/-- In active mode WRPOLY, BUILD and START are rejected, and of the others only STOP writes ACTIVE: the mode and the table
stay (R23, R56). -/
theorem exec_keeps_active {i : Instr} {s t : State} (hactive : s.block.active = true)
    (hvalid : s.block.tableValid = true) (hstop : i ≠ .stop) (h : exec i s = .next t) :
    t.block.active = true ∧ t.block.tableValid = true := by
  obtain ⟨c, -, hexec⟩ | ⟨hacc, hexec⟩ := exec_cases i s
  · obtain rfl := Host.Outcome.next.inj (hexec.symm.trans h)
    exact ⟨hactive, hvalid⟩
  · obtain rfl := Host.Outcome.next.inj (hexec.symm.trans h)
    have hnot : ¬ ((∃ p, i = .wrpoly p) ∨ i = .build ∨ i = .start) := fun hi => by
      simp [idle_of_accepted hacc hi] at hactive
    push Not at hnot
    obtain ⟨hwrpoly, hbuild, hstart⟩ := hnot
    exact ⟨(acceptedRecord_active hstart hstop).trans hactive, (acceptedRecord_tableValid hbuild hwrpoly).trans hvalid⟩

/-- Settles O4: the checks of START in their order, and the mode kept until STOP. -/
theorem startEntersActive : Obligations.StartEntersActive :=
  fun _ => ⟨rfl, fun hidle hvalid => exec_of_accepted (by simp [rejection, hidle, hvalid]),
    fun hactive => exec_of_rejection (by simp [rejection, hactive]),
    fun hidle hvalid => exec_of_rejection (by simp [rejection, hidle, hvalid]),
    fun _ _ hactive hvalid hstop h => exec_keeps_active hactive hvalid hstop h⟩

/-- Settles O1: NOP has no check and no write; its word has no operand. -/
theorem nopDoesNothing : Obligations.NopDoesNothing :=
  fun s => ⟨rfl, exec_of_accepted rfl, fun _ h => command_of_nonzero_operand (i := .nop) rfl h s⟩

/-- Settles O2: a value equal to POLY keeps TABLE_VALID, any other clears it. -/
theorem wrpolyWritesPolynomial : Obligations.WrpolyWritesPolynomial := by
  refine fun p s => ⟨rfl, fun hidle => ?_, fun hactive => exec_of_rejection (by simp [rejection, hactive])⟩
  rw [exec_of_accepted (by simp [rejection, hidle])]
  by_cases hp : p = s.block.poly
  · simp [acceptedRecord, acceptedData, hp]
  · simp [acceptedRecord, acceptedData, hp, beq_false_of_ne hp]

/-- Settles O5: STOP's one check is the mode. -/
theorem stopEntersIdle : Obligations.StopEntersIdle :=
  fun _ => ⟨rfl, fun hactive => exec_of_accepted (by simp [rejection, hactive]),
    fun hidle => exec_of_rejection (by simp [rejection, hidle])⟩

/-- With no error pending the code is `NONE` (R81), so clearing both leaves the record as it is. -/
theorem acceptedRecord_ackerr_of_no_error {b : Block} (h : b.Inv) (herr : b.err = false) :
    acceptedRecord .ackerr b = b := by
  have hcode : b.errCode = 0#4 := by simpa [herr] using h.errIffCode
  rw [acceptedRecord, ← herr, ← hcode]

/-- Settles O6: ACKERR has no check; without an error its writes change nothing; its word has no operand. -/
theorem ackerrClearsErrors : Obligations.AckerrClearsErrors := by
  refine fun s => ⟨rfl, exec_of_accepted rfl, fun hinv herr => ?_,
    fun _ h => command_of_nonzero_operand (i := .ackerr) rfl h s⟩
  rw [exec_of_accepted (i := .ackerr) rfl, acceptedRecord_ackerr_of_no_error hinv herr]
  rfl

end Sys2Proof.Machine

/-! ## The datapath: the fold, the segment function and their commands (R60 to R66)

The fold is linear in the accumulator and the byte together (`fold_buildTable_xor`), since the table is linear in its index.
A run of one segment, whatever commands follow it, is `run_segCommands_append`. -/

namespace Sys2Proof

/-- A command with an 8-bit operand is its opcode, 24 zeros and the operand (R43, R44). -/
theorem append_setWidth_byte (op b : Byte) : op ++ b.setWidth 32 = (op ++ 0#24) ++ b := by
  rw [BitVec.setWidth_eq_append (by decide), BitVec.append_assoc]
  rfl

end Sys2Proof

namespace Sys2Proof.Machine

/-! ### The fold (R60, R65) -/

/-- The mask of R60 is the width of the index, so it changes nothing in either spelling. -/
theorem setWidth_and_byteMask (a : Word) : (a &&& 0xFF#32).setWidth 8 = a.setWidth 8 := by
  have hmask : BitVec.setWidth 8 0xFF#32 = BitVec.allOnes 8 := rfl
  rw [BitVec.setWidth_and, hmask, BitVec.and_allOnes]

/-- The index before the mask: the top byte of the accumulator, and the input byte (R60). -/
theorem setWidth_topByte_xor (a : Word) (b : Byte) :
    ((a >>> 24) ^^^ b.setWidth 32).setWidth 8 = a.extractLsb' 24 8 ^^^ b := by
  have htop : (a >>> 24).setWidth 8 = a.extractLsb' 24 8 := rfl
  rw [BitVec.setWidth_xor, htop, BitVec.setWidth_setWidth_of_le b (by decide), BitVec.setWidth_eq]

theorem foldIndex_eq (a : Word) (b : Byte) : foldIndex a b = a.extractLsb' 24 8 ^^^ b :=
  (setWidth_and_byteMask _).trans (setWidth_topByte_xor a b)

theorem fold_eq (a : Word) (b : Byte) (T : Byte → Word) : fold a b T = (a <<< 8) ^^^ T (a.extractLsb' 24 8 ^^^ b) := by
  rw [fold, foldIndex_eq]

/-- Settles O29: the mask of either spelling is the width of the index. -/
theorem foldIndexIsTopByteXorInput : Obligations.FoldIndexIsTopByteXorInput := by
  refine fun a b T => ⟨foldIndex_eq a b, ?_, fold_eq a b T⟩
  rw [BitVec.setWidth_xor, setWidth_and_byteMask, ← BitVec.setWidth_xor, setWidth_topByte_xor]

/-- The accumulator's top byte leaves on the left and meets the byte in the index, and the lower three move up. -/
theorem fold_buildTable_xor (p a a' : Word) (b b' : Byte) :
    fold (a ^^^ a') (b ^^^ b') (buildTable p) = fold a b (buildTable p) ^^^ fold a' b' (buildTable p) := by
  simp only [fold_eq, BitVec.extractLsb'_xor, BitVec.shiftLeft_xor_distrib, buildTable_xor]
  ac_rfl

/-- While the bits shifted out are 0, the rounds only shift. -/
theorem crcRounds_eq_shiftLeft (p : Word) (n : Nat) {r : Word} (h : ∀ k, 32 ≤ k + n → r.getLsbD k = false) :
    crcRounds p n r = r <<< n := by
  induction n generalizing r with
  | zero => simp [crcRounds]
  | succ n ih =>
    have hround : crcRound p r = r <<< 1 := by rw [crcRound, h 31 (by omega)]; rfl
    have hshifted (k : Nat) (hk : 32 ≤ k + n) : (r <<< 1).getLsbD k = false := by
      rw [BitVec.getLsbD_shiftLeft, h (k - 1) (by omega), Bool.and_false]
    rw [crcRounds, hround, ih hshifted, ← BitVec.shiftLeft_add, Nat.add_comm]

/-- The rounds of an accumulator without its top byte move its lower three bytes up. -/
theorem crcRounds_lowerBytes (p a : Word) : crcRounds p 8 (a <<< 8 >>> 8) = a <<< 8 := by
  have htop (k : Nat) (hk : 32 ≤ k + 8) : (a <<< 8 >>> 8).getLsbD k = false := by
    rw [BitVec.getLsbD_ushiftRight]
    exact BitVec.getLsbD_of_ge _ _ (by omega)
  rw [crcRounds_eq_shiftLeft p 8 htop, BitVec.shiftLeft_ushiftRight, ← BitVec.shiftLeft_and_distrib,
    BitVec.and_allOnes]

/-- An accumulator is its lower three bytes and its top byte. -/
theorem lowerBytes_xor_topByte (a : Word) : (a <<< 8 >>> 8) ^^^ (zextByte (a.extractLsb' 24 8) <<< 24) = a := by
  refine BitVec.eq_of_getLsbD_eq fun k hk => ?_
  by_cases hlow : k < 24
  · have hkept : 8 + k < 32 := by omega
    simp [zextByte, hlow, hkept, BitVec.getLsbD_eq_getElem hk]
  · have hout : ¬ 8 + k < 32 := by omega
    have htop : k - 24 < 8 ∧ 24 + (k - 24) = k := by omega
    simp [zextByte, hk, hlow, hout, htop]

/-- Settles O30: the rounds are linear; of the accumulator and the byte together they move the lower bytes up and make the
table's entry of the top byte. -/
theorem foldIsEightBitSerialRounds : Obligations.FoldIsEightBitSerialRounds := by
  intro p a b
  have hsplit : a ^^^ (zextByte b <<< 24) =
      (a <<< 8 >>> 8) ^^^ (zextByte (a.extractLsb' 24 8 ^^^ b) <<< 24) := by
    conv_lhs => rw [← lowerBytes_xor_topByte a]
    simp only [zextByte, BitVec.setWidth_xor, BitVec.shiftLeft_xor_distrib, BitVec.xor_assoc]
  calc fold a b (buildTable p)
      = (a <<< 8) ^^^ buildTable p (a.extractLsb' 24 8 ^^^ b) := fold_eq a b _
    _ = crcRounds p 8 (a <<< 8 >>> 8) ^^^ crcRounds p 8 (zextByte (a.extractLsb' 24 8 ^^^ b) <<< 24) := by
      rw [crcRounds_lowerBytes]; rfl
    _ = bitSerialFold p a b := by rw [← crcRounds_xor, ← hsplit]; rfl

/-! ### The segment function (R65, R66) -/

@[simp] theorem foldBytes_nil (T : Byte → Word) (a : Word) : foldBytes T a [] = a := rfl

@[simp] theorem foldBytes_cons (T : Byte → Word) (a : Word) (b : Byte) (bs : List Byte) :
    foldBytes T a (b :: bs) = foldBytes T (fold a b T) bs := rfl

/-- A zero byte into a zero accumulator picks entry 0, which is 0 (R66 (b)). -/
theorem foldBytes_replicate_zero_append (p : Word) (n : Nat) (bs : List Byte) :
    foldBytes (buildTable p) 0#32 (List.replicate n 0x00#8 ++ bs) = foldBytes (buildTable p) 0#32 bs := by
  have hfold : fold 0#32 0x00#8 (buildTable p) = 0#32 := by simp [fold_eq, buildTable_zero]
  induction n with
  | zero => rfl
  | succ n ih => rw [List.replicate_succ, List.cons_append, foldBytes_cons, hfold, ih]

/-- With polynomial 0 every entry is 0, and a zero accumulator stays 0 (R66 (c)). -/
theorem foldBytes_zero_poly (bs : List Byte) : foldBytes (buildTable 0#32) 0#32 bs = 0#32 :=
  List.foldl_fixed' (fun b => by simp [fold_eq, buildTable_zero_poly]) bs

theorem foldBytes_xor (p a a' : Word) {x y : List Byte} (h : x.length = y.length) :
    foldBytes (buildTable p) (a ^^^ a') (List.zipWith (· ^^^ ·) x y) =
      foldBytes (buildTable p) a x ^^^ foldBytes (buildTable p) a' y := by
  induction x generalizing a a' y with
  | nil => rw [List.length_eq_zero_iff.mp h.symm]; rfl
  | cons b x ih =>
    obtain ⟨b', y, rfl⟩ := List.exists_cons_of_length_eq_add_one h.symm
    rw [List.zipWith_cons_cons, foldBytes_cons, foldBytes_cons, foldBytes_cons, fold_buildTable_xor,
      ih _ _ (Nat.succ.inj h)]

/-- Settles O31: the laws of the folds from a zero accumulator, then the complement: of two complements XORed, one is
left to make up. -/
theorem segmentLaws : Obligations.SegmentLaws := by
  refine ⟨fun p => by simp [crcSeg], fun p n bs => ?_, fun bs => ?_, fun p x y h => ?_, rfl, rfl⟩
  · rw [crcSeg, foldBytes_replicate_zero_append, crcSeg]
  · rw [crcSeg, foldBytes_zero_poly]; rfl
  · have hfolds := foldBytes_xor p 0#32 0#32 h
    rw [BitVec.xor_self] at hfolds
    have hones (c d : Word) : ~~~c ^^^ ~~~d ^^^ 0xFFFFFFFF#32 = ~~~(c ^^^ d) :=
      calc ~~~c ^^^ ~~~d ^^^ 0xFFFFFFFF#32
          = ~~~(~~~c ^^^ ~~~d) := BitVec.xor_allOnes
        _ = ~~~(c ^^^ d) := by rw [BitVec.not_xor_left, BitVec.not_not, ← BitVec.not_xor_right]
    rw [crcSeg, hfolds, crcSeg, crcSeg, hones]

/-! ### The commands (R61 to R63, R65) -/

/-- Settles O7: CLEAR has no check; its one write is ACC. -/
theorem clearZeroesAccumulator : Obligations.ClearZeroesAccumulator := fun _ => ⟨rfl, exec_of_accepted rfl⟩

/-- Settles O9: FINAL has no check; its one write is ACC, and the complement is its own inverse. -/
theorem finalComplementsAccumulator : Obligations.FinalComplementsAccumulator := by
  refine fun s => ⟨rfl, exec_of_accepted rfl, fun t u ht hu => ?_⟩
  obtain rfl := Host.Outcome.next.inj ((exec_of_accepted (i := .final) rfl).symm.trans ht)
  obtain rfl := Host.Outcome.next.inj ((exec_of_accepted (i := .final) rfl).symm.trans hu)
  simp [acceptedRecord]

/-- R17, for the whole table. -/
theorem Block.Inv.tableRead_eq {b : Block} (h : b.Inv) (hvalid : b.tableValid = true) :
    tableRead b.table = buildTable b.poly :=
  funext (h.tableMatches hvalid)

theorem exec_fold_of_valid {s : State} (b : Byte) (hvalid : s.block.tableValid = true) :
    exec (.fold b) s = .next (s.answered
      { s.block with acc := fold s.block.acc b (tableRead s.block.table) } ⟨true, 0#32⟩) :=
  exec_of_accepted (by simp [rejection, hvalid])

/-- Settles O8: FOLD's one check is the table; an active block has one (R23); the corner cases read entries 0 and 255 of
`build_table(POLY)` (R17, R53). -/
theorem foldFoldsOneByte : Obligations.FoldFoldsOneByte := by
  refine fun b s => ⟨append_setWidth_byte 0x11#8 b, exec_fold_of_valid b,
    fun hvalid => exec_of_rejection (by simp [rejection, hvalid]),
    fun hinv hactive => ⟨_, exec_fold_of_valid b (hinv.activeHasTable hactive)⟩, fun hinv hvalid htop => ?_,
    fun hinv hvalid hpoly hacc hb => ?_⟩
  · rw [exec_fold_of_valid b hvalid, fold_eq, htop, BitVec.xor_self, hinv.tableRead_eq hvalid, buildTable_zero,
      BitVec.xor_zero]
  · rw [exec_fold_of_valid b hvalid, hinv.tableRead_eq hvalid, hpoly, hacc, hb]
    rfl

/-- A run whose first command is accepted performs it, takes its response, and goes on. -/
theorem run_commandRun_cons_of_accepted {i : Instr} {s : State} (is : List Instr) (h : rejection i s.block = none) :
    run (commandRun (i :: is)) s = run (commandRun is) { s with
      block := acceptedRecord i s.block, port := .idle, taken := s.taken ++ [⟨true, acceptedData i s.block⟩] } :=
  run_commandRun_cons is (exec_of_accepted h)

/-- FOLDs through a valid table fold their bytes into ACC (R62), and the run goes on with what follows them. -/
theorem run_folds_append (bs : List Byte) (is : List Instr) (s : State) (hinv : s.block.Inv)
    (hvalid : s.block.tableValid = true) (hidle : s.port = .idle) :
    run (commandRun (bs.map .fold ++ is)) s = run (commandRun is) { s with
      block := { s.block with acc := foldBytes (buildTable s.block.poly) s.block.acc bs }
      taken := s.taken ++ List.replicate bs.length ⟨true, 0#32⟩ } := by
  induction bs generalizing s with
  | nil => simp
  | cons b bs ih =>
    have hacc : rejection (.fold b) s.block = none := by simp [rejection, hvalid]
    rw [List.map_cons, List.cons_append, run_commandRun_cons_of_accepted _ hacc, ih]
    · simp [acceptedRecord, acceptedData, hinv.tableRead_eq hvalid, hidle, List.replicate_succ]
    · exact hinv.accepted hacc
    · exact hvalid
    · rfl

/-- A segment through a valid table leaves `crc_seg(POLY, bs)` in ACC (R65), and the run goes on with what follows it. -/
theorem run_segCommands_append (bs : List Byte) (is : List Instr) {s : State} (hinv : s.block.Inv)
    (hvalid : s.block.tableValid = true) :
    run (commandRun (segCommands bs ++ is)) s = run (commandRun is) { s with
      block := { s.block with acc := crcSeg s.block.poly bs }
      port := .idle
      taken := s.taken ++ List.replicate (bs.length + 2) ⟨true, 0#32⟩ } := by
  have hclear : rejection .clear s.block = none := rfl
  have hresponses (r : Response) : List.replicate (bs.length + 2) r = r :: (List.replicate bs.length r ++ [r]) := by
    rw [List.replicate_succ, List.replicate_succ']
  rw [segCommands, List.cons_append, List.append_assoc, run_commandRun_cons_of_accepted _ hclear, run_folds_append,
    List.singleton_append, run_commandRun_cons_of_accepted _ rfl]
  · simp [acceptedRecord, acceptedData, crcSeg, hresponses]
  · exact hinv.accepted hclear
  · exact hvalid
  · rfl

/-- Settles O32: a segment with nothing after it. -/
theorem segmentRunComputesCrcSeg : Obligations.SegmentRunComputesCrcSeg := by
  intro s bs hinv hvalid
  simpa using run_segCommands_append bs [] hinv hvalid

end Sys2Proof.Machine

/-! ## The read commands (R67 to R70)

A read leaves the record as it is. RDACC, RDPOLY and RDSTAT have no check; RDTAB's one check is the table. -/

namespace Sys2Proof.Machine

theorem exec_rdtab_of_valid {s : State} (i : Byte) (hvalid : s.block.tableValid = true) :
    exec (.rdtab i) s = .next (s.answered s.block ⟨true, tableRead s.block.table i⟩) :=
  exec_of_accepted (by simp [rejection, hvalid])

/-- Settles O12: a valid table is `build_table(POLY)` (R17), whose entries 0 and 1 are 0 and the polynomial (R53). -/
theorem rdtabReturnsEntry : Obligations.RdtabReturnsEntry := by
  refine fun i s => ⟨append_setWidth_byte 0x22#8 i, exec_rdtab_of_valid i,
    fun hvalid => exec_of_rejection (by simp [rejection, hvalid]), fun hinv hvalid hi => ?_, fun hinv hvalid hi => ?_⟩
  · rw [exec_rdtab_of_valid i hvalid, hinv.tableRead_eq hvalid, hi, buildTable_zero]
  · rw [exec_rdtab_of_valid i hvalid, hinv.tableRead_eq hvalid, hi, buildTable_one]

/-- Settles O10: RDACC has no check and no write, and answers ACC. -/
theorem rdaccReturnsAccumulator : Obligations.RdaccReturnsAccumulator := fun _ => ⟨rfl, exec_of_accepted rfl⟩

/-- Settles O11: RDPOLY has no check, not of the table either, and no write; it answers POLY. -/
theorem rdpolyReturnsPolynomial : Obligations.RdpolyReturnsPolynomial := fun _ => ⟨rfl, exec_of_accepted rfl⟩

/-- Settles O13: RDSTAT has no check and no write; the listed values are the status word of the given flags (R22). -/
theorem rdstatReturnsStatus : Obligations.RdstatReturnsStatus := by
  refine fun s => ⟨rfl, exec_of_accepted rfl, fun hreset => ?_, fun hvalid hactive herr hcode => ?_,
    fun hvalid hactive herr hcode => ?_⟩
  · rw [hreset]; rfl
  · rw [statusWord, hvalid, hactive, herr, hcode]; rfl
  · rw [statusWord, hvalid, hactive, herr, hcode]; rfl

end Sys2Proof.Machine

/-! ## The host's reference sequences (R71 to R79)

The offsets of a walk are rows of columns (`rowOffsets`). A walk issues segments, each of them ended by an RDACC or by the
next segment's CLEAR, so what it reports is read off `run_segCommands_rdacc_append` and `run_segCommands_append`. A stream run
is accepted command by command (`AcceptedTo`), the mode, the table and the error registers being all that its checks read. -/

namespace Sys2Proof.Machine

/-! ### The offsets of a walk (R73 to R75) -/

/-- The offsets of the columns `cols` in each of the first `rows` rows, from a base, row by row. -/
def rowOffsets (base pitch rows : Nat) (cols : List Nat) : List Nat :=
  (List.range rows).flatMap fun row => cols.map fun col => base + row * pitch + col

section
variable {base pitch rows o : Nat} {cols : List Nat}

theorem mem_rowOffsets :
    o ∈ rowOffsets base pitch rows cols ↔ ∃ row, row < rows ∧ ∃ col ∈ cols, o = base + row * pitch + col := by
  simp [rowOffsets, eq_comm]

theorem length_rowOffsets : (rowOffsets base pitch rows cols).length = rows * cols.length := by
  simp [rowOffsets, List.length_flatMap]

/-- Rows of rising columns within the pitch do not overlap, so the offsets rise from row to row too. -/
theorem pairwise_rowOffsets (hcols : cols.Pairwise (· < ·)) (hpitch : ∀ col ∈ cols, col < pitch) :
    (rowOffsets base pitch rows cols).Pairwise (· < ·) := by
  refine List.pairwise_flatMap.mpr ⟨fun row _ => ?_, List.pairwise_lt_range.imp fun {row row'} hrows => ?_⟩
  · exact hcols.map _ fun _ _ h => Nat.add_lt_add_left h _
  · simp only [List.mem_map, forall_exists_index, and_imp, forall_apply_eq_imp_iff₂]
    intro col hcol col' _
    have hnext : (row + 1) * pitch ≤ row' * pitch := Nat.mul_le_mul_right _ hrows
    have hlt := hpitch col hcol
    rw [Nat.succ_mul] at hnext
    omega

end

/-- `n` pairs of neighbouring offsets are `2*n` consecutive ones. -/
theorem flatMap_pairs_eq_map_range (start n : Nat) :
    ((List.range n).flatMap fun pair => [start + 2 * pair, start + 2 * pair + 1]) =
      (List.range (2 * n)).map fun col => start + col := by
  induction n with
  | zero => rfl
  | succ n ih => simp [List.range_succ, Nat.mul_succ, ih, ← Nat.add_assoc]

/-- R73: the pairs of a row are the columns below `2*floor(width/2)`. -/
theorem lumaOffsets_eq (g : Geometry) :
    lumaOffsets g = rowOffsets 0 g.strideW g.height (List.range (2 * (g.width / 2))) := by
  simp only [lumaOffsets, rowOffsets, flatMap_pairs_eq_map_range, Nat.zero_add]

/-- R74: the rows start at the chroma base. -/
theorem chromaUOffsets_eq (g : Geometry) :
    chromaUOffsets g = rowOffsets (g.strideW * g.strideH) g.strideW (g.height / 2) (chromaColumns g) := rfl

theorem mem_chromaColumns {g : Geometry} {col : Nat} : col ∈ chromaColumns g ↔ ∃ k, 2 * k < g.width ∧ col = 2 * k := by
  have hhalf (k : Nat) : k < (g.width + 1) / 2 ↔ 2 * k < g.width := by omega
  simp [chromaColumns, hhalf, eq_comm]

theorem pairwise_chromaColumns (g : Geometry) : (chromaColumns g).Pairwise (· < ·) :=
  List.pairwise_lt_range.map _ fun _ _ h => Nat.mul_lt_mul_of_pos_left h Nat.two_pos

/-- Settles O55: by the luma offsets as rows of columns. -/
theorem lumaOffsetsOfRows : Obligations.LumaOffsetsOfRows := by
  intro g
  rw [lumaOffsets_eq]
  refine ⟨fun o => ?_, by rw [length_rowOffsets, List.length_range], fun hpitch => ?_⟩
  · simp [mem_rowOffsets]
  · refine pairwise_rowOffsets List.pairwise_lt_range fun col hcol => ?_
    have hlt := List.mem_range.mp hcol
    omega

/-- Settles O56: by the U offsets as rows of even columns; the V offsets are defined from them. -/
theorem chromaOffsetsOfRows : Obligations.ChromaOffsetsOfRows := by
  refine fun g => ⟨fun o => ?_, fun hpitch => ?_, rfl⟩
  · simp [chromaUOffsets_eq, mem_rowOffsets, mem_chromaColumns]
  · refine pairwise_rowOffsets (pairwise_chromaColumns g) fun col hcol => ?_
    obtain ⟨k, hk, rfl⟩ := mem_chromaColumns.mp hcol
    exact Nat.lt_of_lt_of_le hk hpitch

/-- Without a chroma row or a column there is no V byte (R76). -/
theorem chromaVOffsets_eq_nil {g : Geometry} (h : g.height / 2 = 0 ∨ g.width = 0) : chromaVOffsets g = [] := by
  obtain h | h := h <;> simp [chromaVOffsets, chromaUOffsets, chromaColumns, h]

/-! ### The commands of a walk (R76, R77, R79) -/

/-- The bytes are read exactly when every offset is inside the view. -/
theorem readView_isSome_iff (v : List Byte) (os : List Nat) :
    (readView v os).isSome = true ↔ ∀ o ∈ os, o < v.length := by
  induction os with
  | nil => simp [readView]
  | cons o os ih =>
    have hread : v[o]?.isSome = true ↔ o < v.length := by simp
    rw [List.forall_mem_cons, ← ih, ← hread, readView]
    cases v[o]? <;> cases readView v os <;> simp

section
variable {g : Geometry} {v : List Byte} {cmds : List Instr}

/-- A planar walk that is issued has read the bytes of its three segments, and is those segments, then RDACC (R76). -/
theorem exists_of_planarWalk (h : planarWalk g v = some cmds) :
    ∃ y u vc, readView v (lumaOffsets g) = some y ∧ readView v (chromaUOffsets g) = some u ∧
      readView v (chromaVOffsets g) = some vc ∧
      segCommands y ++ segCommands u ++ segCommands vc ++ [.rdacc] = cmds := by
  unfold planarWalk at h
  split at h
  · next y u vc hy hu hvc => exact ⟨y, u, vc, hy, hu, hvc, Option.some.inj h⟩
  · contradiction

/-- So has one of option (b), with an RDACC after each segment (R79). -/
theorem exists_of_planarWalkEach (h : planarWalkEach g v = some cmds) :
    ∃ y u vc, readView v (lumaOffsets g) = some y ∧ readView v (chromaUOffsets g) = some u ∧
      readView v (chromaVOffsets g) = some vc ∧
      segCommands y ++ [.rdacc] ++ segCommands u ++ [.rdacc] ++ segCommands vc ++ [.rdacc] = cmds := by
  unfold planarWalkEach at h
  split at h
  · next y u vc hy hu hvc => exact ⟨y, u, vc, hy, hu, hvc, Option.some.inj h⟩
  · contradiction

end

/-- Settles O54: the walk is issued when each of its three segments is read. -/
theorem planarWalkIssuedWithinBounds : Obligations.PlanarWalkIssuedWithinBounds := by
  intro g v
  simp only [List.forall_mem_append, ← readView_isSome_iff, Option.isSome_iff_exists]
  constructor
  · rintro ⟨cmds, hwalk⟩
    obtain ⟨y, u, vc, hy, hu, hvc, -⟩ := exists_of_planarWalk hwalk
    exact ⟨⟨⟨y, hy⟩, u, hu⟩, vc, hvc⟩
  · rintro ⟨⟨⟨y, hy⟩, u, hu⟩, vc, hvc⟩
    simp [planarWalk, hy, hu, hvc]

/-! ### What a walk reports (R72, R76, R79) -/

/-- The accumulator is free of the invariant. -/
theorem Block.Inv.withAcc {b : Block} (h : b.Inv) (a : Word) : Block.Inv { b with acc := a } := { h with }

/-- A segment and its RDACC through a valid table report `crc_seg(POLY, bs)` and leave it in ACC (R65, R67), and the run goes
on with what follows. -/
theorem run_segCommands_rdacc_append (bs : List Byte) (is : List Instr) {s : State} (hinv : s.block.Inv)
    (hvalid : s.block.tableValid = true) :
    run (commandRun (segCommands bs ++ .rdacc :: is)) s = run (commandRun is) { s with
      block := { s.block with acc := crcSeg s.block.poly bs }
      port := .idle
      taken := s.taken ++ (List.replicate (bs.length + 2) ⟨true, 0#32⟩ ++ [⟨true, crcSeg s.block.poly bs⟩]) } := by
  rw [run_segCommands_append bs _ hinv hvalid, run_commandRun_cons_of_accepted is rfl]
  simp [acceptedRecord, acceptedData]

/-- Settles O51: the flat walk is one segment and its RDACC. -/
theorem flatWalkReportsCrcSeg : Obligations.FlatWalkReportsCrcSeg := by
  intro s v hinv hvalid
  exact run_segCommands_rdacc_append v [] hinv hvalid

/-- Settles O52: each segment begins with CLEAR, so the last one alone makes the value that RDACC reads. -/
theorem planarWalkReportsLastSegment : Obligations.PlanarWalkReportsLastSegment := by
  intro s g v cmds hinv hvalid hwalk
  obtain ⟨y, u, vc, -, -, hvc, rfl⟩ := exists_of_planarWalk hwalk
  refine ⟨vc, (y.length + 2) + (u.length + 2) + (vc.length + 2), hvc, ?_, fun hnone => ?_⟩
  · rw [List.append_assoc, List.append_assoc, run_segCommands_append y _ hinv hvalid,
      run_segCommands_append u, run_segCommands_rdacc_append vc []]
    · simp [List.replicate_add]
    · exact hinv.withAcc _
    · exact hvalid
    · exact hinv.withAcc _
    · exact hvalid
  · rw [chromaVOffsets_eq_nil hnone] at hvc
    obtain rfl : [] = vc := Option.some.inj hvc
    exact segmentLaws.1 s.block.poly

/-- Settles O53: three segments, each with its RDACC. -/
theorem planarWalkEachReportsSegments : Obligations.PlanarWalkEachReportsSegments := by
  intro s g v cmds hinv hvalid hwalk
  obtain ⟨y, u, vc, hy, hu, hvc, rfl⟩ := exists_of_planarWalkEach hwalk
  refine ⟨y, u, vc, hy, hu, hvc, ?_⟩
  simp only [List.append_assoc, List.cons_append, List.nil_append]
  rw [run_segCommands_rdacc_append y _ hinv hvalid, run_segCommands_rdacc_append u, run_segCommands_rdacc_append vc []]
  · simp
  · exact hinv.withAcc _
  · exact hvalid
  · exact hinv.withAcc _
  · exact hvalid

/-! ### Lists of commands accepted from a record to a record (R78) -/

/-- Every command of the list is accepted, each on the record the ones before left, and the last leaves a record of `Q`. -/
def AcceptedTo (Q : Block → Prop) : List Instr → Block → Prop
  | [], b => Q b
  | i :: is, b => rejection i b = none ∧ AcceptedTo Q is (acceptedRecord i b)

/-- The run of such a list is accepted at every command and ends in such a record. -/
theorem AcceptedTo.run {Q : Block → Prop} {is : List Instr} {s : State} (h : AcceptedTo Q is s.block) :
    allAccepted is s = true ∧ ∃ t, run (commandRun is) s = .next t ∧ Q t.block := by
  induction is generalizing s with
  | nil => exact ⟨rfl, s, rfl, h⟩
  | cons i is ih =>
    obtain ⟨hacc, hrest⟩ := h
    have hafter (u : State) (hu : u.block = acceptedRecord i s.block) := ih (s := u) (hu ▸ hrest)
    rw [allAccepted_cons, hacc, run_commandRun_cons_of_accepted is hacc]
    exact ⟨(hafter _ rfl).1, (hafter _ rfl).2⟩

/-- One list after another. -/
theorem AcceptedTo.append {P Q : Block → Prop} {is js : List Instr} {b : Block} (h : AcceptedTo P is b)
    (hjs : ∀ b', P b' → AcceptedTo Q js b') : AcceptedTo Q (is ++ js) b := by
  induction is generalizing b with
  | nil => exact hjs b h
  | cons i is ih => exact ⟨h.1, ih h.2⟩

/-- Commands that are accepted in every record of `Q`, and keep it, may follow one another. -/
theorem AcceptedTo.of_kept {Q : Block → Prop} {is : List Instr}
    (h : ∀ i ∈ is, ∀ b, Q b → rejection i b = none ∧ Q (acceptedRecord i b)) {b : Block} (hb : Q b) :
    AcceptedTo Q is b := by
  induction is generalizing b with
  | nil => exact hb
  | cons i is ih =>
    obtain ⟨hhead, htail⟩ := List.forall_mem_cons.mp h
    obtain ⟨hacc, hkept⟩ := hhead b hb
    exact ⟨hacc, ih htail hkept⟩

/-! ### The stream run (R78) -/

/-- A record in the mode given, with a valid table, and with the error registers of `b₀`. -/
structure Block.Streams (b₀ : Block) (mode : Bool) (b : Block) : Prop where
  active : b.active = mode
  tableValid : b.tableValid = true
  err : b.err = b₀.err
  errCode : b.errCode = b₀.errCode

/-- The commands of segments and their reports: legal in both modes with a valid table (R82, R86). -/
inductive WalkCommand : Instr → Prop
  | clear : WalkCommand .clear
  | fold (b : Byte) : WalkCommand (.fold b)
  | final : WalkCommand .final
  | rdacc : WalkCommand .rdacc

/-- A walk's command writes ACC at most. -/
theorem Block.Streams.walkCommand {b₀ b : Block} {mode : Bool} {i : Instr} (hi : WalkCommand i)
    (h : b₀.Streams mode b) : rejection i b = none ∧ b₀.Streams mode (acceptedRecord i b) := by
  cases hi with
  | clear | final => exact ⟨rfl, { h with }⟩
  | fold x => exact ⟨by simp [rejection, h.tableValid], { h with }⟩
  | rdacc => exact ⟨rfl, h⟩

theorem walkCommand_of_mem_segCommands {i : Instr} {bs : List Byte} (h : i ∈ segCommands bs) : WalkCommand i := by
  simp only [segCommands, List.mem_cons, List.mem_append, List.mem_map, List.not_mem_nil, or_false] at h
  obtain rfl | ⟨b, -, rfl⟩ | rfl := h
  · exact .clear
  · exact .fold b
  · exact .final

/-- The flat walk is a segment and its report; the planar walk is three segments and a report, or nothing (R77). -/
theorem walkCommand_of_mem_frameCommands {i : Instr} {f : Frame} (h : i ∈ frameCommands f) : WalkCommand i := by
  cases f with
  | flat v =>
    obtain h | h := List.mem_append.mp h
    · exact walkCommand_of_mem_segCommands h
    · exact List.mem_singleton.mp h ▸ .rdacc
  | planar g v =>
    cases hwalk : planarWalk g v with
    | none => simp [frameCommands, hwalk] at h
    | some cmds =>
      obtain ⟨y, u, vc, -, -, -, rfl⟩ := exists_of_planarWalk hwalk
      simp only [frameCommands, hwalk, Option.getD_some, List.mem_append, List.mem_singleton] at h
      obtain ((h | h) | h) | rfl := h
      · exact walkCommand_of_mem_segCommands h
      · exact walkCommand_of_mem_segCommands h
      · exact walkCommand_of_mem_segCommands h
      · exact .rdacc

/-- A preparation in idle mode leaves a valid table, if it builds one or finds one (R78 (a)). -/
theorem acceptedTo_setupCommands {setup : Setup} {b : Block} (hidle : b.active = false)
    (hkeep : setup = .keep → b.tableValid = true) : AcceptedTo (b.Streams false) (setupCommands setup) b := by
  have hbuild : rejection .build b = none := by simp [rejection, hidle]
  cases setup with
  | keep => exact ⟨hidle, hkeep rfl, rfl, rfl⟩
  | build => exact ⟨hbuild, hidle, rfl, rfl, rfl⟩
  | setpoly p => exact ⟨hbuild, hbuild, hidle, rfl, rfl, rfl⟩

theorem Block.Streams.start {b₀ b : Block} (h : b₀.Streams false b) : AcceptedTo (b₀.Streams true) [.start] b :=
  ⟨by simp [rejection, h.active, h.tableValid], { h with active := rfl }⟩

theorem Block.Streams.stop {b₀ b : Block} (h : b₀.Streams true b) : AcceptedTo (b₀.Streams false) [.stop] b :=
  ⟨by simp [rejection, h.active], { h with active := rfl }⟩

/-- Settles O57: the preparation leaves a valid table, START enters active mode, the walks keep both, STOP leaves the mode. -/
theorem streamRunIsAccepted : Obligations.StreamRunIsAccepted := by
  intro s setup frames _ hidle hkeep
  have hframes (b : Block) (hb : s.block.Streams true b) :
      AcceptedTo (s.block.Streams true) (frames.flatMap frameCommands) b := by
    refine .of_kept (fun i hi b hb => ?_) hb
    obtain ⟨f, -, hf⟩ := List.mem_flatMap.mp hi
    exact hb.walkCommand (walkCommand_of_mem_frameCommands hf)
  have hstream : AcceptedTo (s.block.Streams false) (streamRun setup frames) s.block :=
    (((acceptedTo_setupCommands hidle hkeep).append fun _ => Block.Streams.start).append hframes).append
      fun _ => Block.Streams.stop
  obtain ⟨haccepted, t, hrun, ht⟩ := hstream.run
  exact ⟨haccepted, t, hrun, ht.active, ht.tableValid, ht.err, ht.errCode⟩

end Sys2Proof.Machine

/-! ## Rejections, modes, and the machine's next state (R80 to R86, R97)

The matrix of R82 fixes each command's response (`exec_answers_response`), so the table of modes is the matrix read at one
mode. The mode itself is written by an accepted START or STOP only (`start_or_stop_of_active_ne`). -/

namespace Sys2Proof

/-- A word of a defined opcode is illegal exactly when its operand breaks the form of the opcode's command (R44, R46). -/
theorem exists_decode_opcode_append_error_iff (i : Instr) (operand : Word) :
    (∃ e, decode (i.opcode ++ operand) = .error e) ↔ i.form.operandOk operand = false := by
  refine ⟨fun ⟨e, he⟩ => ?_, fun hbad => ⟨_, decode_opcode_append_of_not_operandOk hbad⟩⟩
  obtain ⟨r, hr, hop, hform⟩ := exists_row_of_instr i
  rw [decode_of_row hr (by rw [opField_append, hop]), hform, checkForm_error, operandField_append] at he
  exact he.1

end Sys2Proof

namespace Sys2Proof.Machine

/-! ### Rejections (R80, R82, R85) -/

/-- Illegal words are the decoder's to reject: no check of a decoded command raises `ILLEGAL_CMD` (R82). -/
theorem rejection_ne_illegalCmd (i : Instr) (b : Block) : rejection i b ≠ some .illegalCmd := by
  cases i with
  | nop | ackerr | clear | final | rdacc | rdpoly | rdstat => exact nofun
  | wrpoly _ | build | stop => cases hactive : b.active <;> simp [rejection, hactive]
  | fold _ | rdtab _ => cases hvalid : b.tableValid <;> simp [rejection, hvalid]
  | start => cases hactive : b.active <;> cases hvalid : b.tableValid <;> simp [rejection, hactive, hvalid]

/-- Settles O17: the two outcomes of a command are those of the matrix; the decoder checks each opcode's form. -/
theorem rejectionMatrixHolds : Obligations.RejectionMatrixHolds := by
  refine ⟨fun _ _ _ => exec_of_rejection, fun _ _ hacc => ⟨_, _, exec_of_accepted hacc⟩,
    fun i s => rejection_ne_illegalCmd i s.block, fun i operand => ?_⟩
  rw [exists_decode_opcode_append_error_iff]
  cases i.form <;> simp [Form.operandOk]

/-- Settles O16: a failed check and an illegal word both come to `reject`; after the response, rejected or not, the port is
idle, and every word answers from any record. -/
theorem rejectionIsPrecise : Obligations.RejectionIsPrecise := by
  refine fun c s => ⟨rfl, fun w e h => by rw [command_eq_reject h],
    fun i h => by rw [exec_of_rejection h, reject_answers], fun v t u n ht hu => ?_⟩
  obtain rfl := Host.Outcome.next.inj ((reject_answers c s).symm.trans ht)
  obtain rfl := Host.Outcome.next.inj ((respond_answers v s).symm.trans hu)
  refine ⟨rfl, fun w => ?_⟩
  obtain ⟨b, r, hanswer⟩ := command_answersFromRecord w (s.rejected c).takeResponse.block
  exact ⟨_, hanswer _ rfl⟩

/-- Settles O21: a rejection writes ERR and ERRCODE whatever they held, and so does ACKERR, which has no check. -/
theorem laterRejectionOverwritesCode : Obligations.LaterRejectionOverwritesCode := by
  intro c d s t u ht hu
  obtain rfl := Host.Outcome.next.inj ((reject_answers c s).symm.trans ht)
  obtain rfl := Host.Outcome.next.inj ((reject_answers d _).symm.trans hu)
  exact ⟨rfl, exec_of_accepted rfl⟩

/-! ### The modes (R86) -/

/-- The response to a decoded command: the code of the matrix, or the data of an accepted command (R48, R82). -/
def commandResponse (i : Instr) (b : Block) : Response :=
  match rejection i b with
  | some c => ⟨false, zextCode c.code⟩
  | none => ⟨true, acceptedData i b⟩

theorem exec_answers_response (i : Instr) (s : State) :
    ∃ b, exec i s = .next (s.answered b (commandResponse i s.block)) := by
  obtain ⟨c, hrej, hexec⟩ | ⟨hacc, hexec⟩ := exec_cases i s
  · exact ⟨_, by rw [hexec, commandResponse, hrej, rejected_eq_answered]⟩
  · exact ⟨_, by rw [hexec, commandResponse, hacc]⟩

@[simp] theorem commandResponse_ok (i : Instr) (b : Block) : (commandResponse i b).ok = (rejection i b).isNone := by
  unfold commandResponse
  cases rejection i b <;> rfl

theorem commandResponse_of_rejection {i : Instr} {b : Block} {c : RejectCode} (h : rejection i b = some c) :
    commandResponse i b = ⟨false, zextCode c.code⟩ := by
  rw [commandResponse, h]

/-- Only START, into active mode, and STOP, into idle mode, change the mode. -/
theorem start_or_stop_of_active_ne {i : Instr} {s t : State} (h : exec i s = .next t)
    (hne : t.block.active ≠ s.block.active) :
    (i = .start ∧ t.block.active = true) ∨ (i = .stop ∧ t.block.active = false) := by
  obtain ⟨c, -, hexec⟩ | ⟨-, hexec⟩ := exec_cases i s
  · obtain rfl := Host.Outcome.next.inj (hexec.symm.trans h)
    exact absurd rfl hne
  · obtain rfl := Host.Outcome.next.inj (hexec.symm.trans h)
    obtain rfl | hstart := eq_or_ne i .start
    · exact .inl ⟨rfl, rfl⟩
    obtain rfl | hstop := eq_or_ne i .stop
    · exact .inr ⟨rfl, rfl⟩
    exact absurd (acceptedRecord_active hstart hstop) hne

/-- Settles O18: only an accepted START or STOP writes the mode; the table of modes is the matrix of R82 read in each mode,
an active block having a valid table (R23). -/
theorem modesChangeByStartAndStopOnly : Obligations.ModesChangeByStartAndStopOnly := by
  refine ⟨rfl, fun i s t h hidle hactive => ?_, fun i s t h hactive hidle => ?_,
    fun s hidle hvalid => exec_of_accepted (by simp [rejection, hidle, hvalid]),
    fun s hactive => exec_of_accepted (by simp [rejection, hactive]),
    fun i s _ hidle => ?_, fun i s hinv hactive => ?_⟩
  · simpa [hactive] using start_or_stop_of_active_ne h (by simp [hidle, hactive])
  · simpa [hidle] using start_or_stop_of_active_ne h (by simp [hidle, hactive])
  · obtain ⟨b, hexec⟩ := exec_answers_response i s
    refine ⟨b, _, hexec, ?_⟩
    cases i with
    | stop => exact commandResponse_of_rejection (c := .badTransition) (by simp [rejection, hidle])
    | start | fold _ | rdtab _ => cases hvalid : s.block.tableValid <;> simp [rejection, hidle, hvalid]
    | wrpoly _ | build => simp [rejection, hidle]
    | nop | ackerr | clear | final | rdacc | rdpoly | rdstat => rfl
  · obtain ⟨b, hexec⟩ := exec_answers_response i s
    have hvalid := hinv.activeHasTable hactive
    refine ⟨b, _, hexec, ?_⟩
    cases i with
    | wrpoly _ | build => exact commandResponse_of_rejection (c := .cfgActive) (by simp [rejection, hactive])
    | start => exact commandResponse_of_rejection (c := .badTransition) (by simp [rejection, hactive])
    | stop | fold _ | rdtab _ => simp [rejection, hactive, hvalid]
    | nop | ackerr | clear | final | rdacc | rdpoly | rdstat => rfl

/-! ### The next state of the machine (R80, R97) -/

/-- One edge of each kind: reset, a word accepted or none, a response awaited, offered or taken (R42, R92). -/
theorem exists_portEdge_eq_next (i : PortIn) (s : State) : ∃ t, portEdge i s = .next t := by
  cases hr : i.rstN with
  | false => exact ⟨_, portEdge_reset s i hr⟩
  | true =>
    match hp : s.port, hw : s.pending with
    | .idle, some w =>
      obtain ⟨b, r, hanswer⟩ := accept_transact_of_record w s.block
      exact ⟨_, (portEdge_idle_offer s i w hr hw hp).trans (hanswer (s.setPending none) rfl).1⟩
    | .idle, none => exact ⟨_, portEdge_idle_quiet s i hr hw hp⟩
    | .outstanding (n + 1) r, _ => exact ⟨_, portEdge_waiting s i n r hr hp⟩
    | .outstanding 0 r, _ =>
      rw [portEdge_offered s i r hr hp]
      cases i.rspReady <;> exact ⟨_, rfl⟩

/-- Settles O35: a step is one edge, the host having moved on. -/
theorem stepAlwaysAnswers : Obligations.StepAlwaysAnswers :=
  fun s => exists_portEdge_eq_next s.nextInput s.advanceHost

end Sys2Proof.Machine

/-! ## Reset, boot and hazards (R92 to R99)

A run's responses and final record are fixed by the record it starts from (`run_answersFromRecord`), so a run after a reset
forgets what stood before it. The polynomial hazard is the absence of a table in idle mode (`Block.Unbuilt`), which only BUILD
ends. -/

namespace Sys2Proof.Machine

/-! ### The reset edge, and what the host offers (R92, R95, R99) -/

theorem statusWord_reset : statusWord Block.reset = 0#32 := rfl

theorem step_reset {s : State} (hr : s.nextInput.rstN = false) : step s = .next (resetEdge s.advanceHost) :=
  portEdge_reset s.advanceHost s.nextInput hr

/-- Nothing is offered at an edge at which `cmd_ready` is 0 (R99). -/
theorem State.offered_of_not_ready {s : State} (h : cmdReady s s.nextInput.rstN = false) : s.offered = none := by
  rw [State.offered_eq, h]
  rfl

/-- Settles O38: no output of the port is 1 while `rst_n` is 0, and the edge gives the record of reset. -/
theorem resetEdgeRestoresRecord : Obligations.ResetEdgeRestoresRecord := by
  refine fun s => ⟨rfl, rfl, rfl, fun hr => ⟨_, step_reset hr, rfl, rfl, rfl, rfl, rfl, rfl, statusWord_reset, rfl, rfl, rfl,
    ?_, rfl⟩⟩
  exact State.offered_of_not_ready (by rw [hr]; rfl)

theorem cmdReady_eq_true_iff {s : State} {rstN : Bool} : cmdReady s rstN = true ↔ rstN = true ∧ s.port = .idle := by
  simp [cmdReady]

/-- At an edge at which `cmd_ready` is 0, a reset or one with a command outstanding, the word at hand waits. -/
theorem pending_of_step_not_ready {s t : State} (h : cmdReady s s.nextInput.rstN = false) (hstep : step s = .next t) :
    t.pending = s.chosen := by
  cases hr : s.nextInput.rstN with
  | false =>
    obtain rfl := Host.Outcome.next.inj ((step_reset hr).symm.trans hstep)
    rfl
  | true =>
    unfold step at hstep
    match hp : s.port with
    | .idle => simp [cmdReady, hr, hp] at h
    | .outstanding (n + 1) r =>
      obtain rfl := Host.Outcome.next.inj ((portEdge_waiting s.advanceHost _ n r hr hp).symm.trans hstep)
      rfl
    | .outstanding 0 r =>
      rw [portEdge_offered s.advanceHost _ r hr hp] at hstep
      split at hstep
      · obtain rfl := Host.Outcome.next.inj hstep
        simp [State.takeResponse, hp]
      · obtain rfl := Host.Outcome.next.inj hstep
        rfl

/-- An edge at which `cmd_ready` is 1 accepts the word at hand. -/
theorem step_ready_accepts {s : State} {w : CmdWord} (h : cmdReady s s.nextInput.rstN = true) (hw : s.chosen = some w) :
    step s = accept w { s with host := s.host.tail, pending := none } := by
  obtain ⟨hr, hp⟩ := cmdReady_eq_true_iff.mp h
  exact portEdge_idle_offer s.advanceHost s.nextInput w hr hw hp

/-- So no word waits after an edge at which `cmd_ready` is 1. -/
theorem pending_of_step_ready {s t : State} (h : cmdReady s s.nextInput.rstN = true) (hstep : step s = .next t) :
    t.pending = none := by
  cases hw : s.chosen with
  | some w =>
    obtain ⟨b, r, hanswer⟩ := accept_transact_of_record w s.block
    have haccept := (hanswer { s with host := s.host.tail, pending := none } rfl).1
    obtain rfl := Host.Outcome.next.inj (haccept.symm.trans ((step_ready_accepts h hw).symm.trans hstep))
    rfl
  | none =>
    obtain ⟨hr, hp⟩ := cmdReady_eq_true_iff.mp h
    obtain rfl := Host.Outcome.next.inj ((portEdge_idle_quiet s.advanceHost _ hr hw hp).symm.trans hstep)
    exact hw

/-- Settles O60: `cmd_ready` decides whether the word at hand is offered, and then accepted, or waits. -/
theorem offerHeldUntilAccepted : Obligations.OfferHeldUntilAccepted := by
  intro s t hstep
  refine ⟨fun h => ⟨State.offered_of_not_ready h, pending_of_step_not_ready h hstep⟩,
    fun h => ⟨by simp [State.offered_eq, h], pending_of_step_ready h hstep⟩, fun w hw => ?_, fun n r hp => ?_,
    fun w hw => by simp [State.chosen, hw]⟩
  · obtain ⟨hready, hchosen⟩ : cmdReady s s.nextInput.rstN = true ∧ s.chosen = some w := by
      simpa [State.offered_eq] using hw
    exact ⟨hready, step_ready_accepts hready hchosen ▸ hstep⟩
  · exact State.offered_of_not_ready (by simp [cmdReady, hp])

/-- Settles O42: the wait counted down, the last edge is the first that offers the response to the ready host. -/
theorem outstandingResponseArrives : Obligations.OutstandingResponseArrives := by
  intro s n r l rest hport hhost hlength hl
  obtain ⟨wait, taker, rfl⟩ : ∃ wait taker, l = wait ++ [taker] :=
    (List.eq_nil_or_concat' l).resolve_left (by rintro rfl; simp at hlength)
  obtain rfl : wait.length = n := by simpa using hlength
  simp only [List.forall_mem_append, List.forall_mem_singleton] at hl
  obtain ⟨hwait, htaker, htaken⟩ := hl
  have hrun := run_until_taken (delay := []) (by simpa using hhost) hport (by simpa using fun i hi => (hwait i hi).1)
    nofun htaker htaken
  simpa using hrun

/-! ### Runs with resets between (R92, R98) -/

/-- A run always completes; its responses, one for each command, and its last record depend on the record it starts from
alone. -/
theorem run_answersFromRecord (rs : List RunStep) (b : Block) : ∃ b' l,
    l.length = (rs.filter fun r => r != .reset).length ∧ ∀ s : State, s.block = b →
      ∃ p, run rs s = .next { s with block := b', port := p, taken := s.taken ++ l } := by
  induction rs generalizing b with
  | nil => exact ⟨b, [], rfl, by rintro s rfl; exact ⟨s.port, by simp [run]⟩⟩
  | cons move rs ih =>
    cases move with
    | reset =>
      obtain ⟨b', l, hlength, hrest⟩ := ih Block.reset
      exact ⟨b', l, hlength, fun s _ => hrest (resetEdge s) rfl⟩
    | command w =>
      obtain ⟨b₁, r, hfirst⟩ := accept_transact_of_record w b
      obtain ⟨b', l, hlength, hrest⟩ := ih b₁
      refine ⟨b', r :: l, by simpa using hlength, fun s hs => ?_⟩
      obtain ⟨p, hp⟩ := hrest { s with block := b₁, port := .idle, taken := s.taken ++ [r] } rfl
      exact ⟨p, by simp [run, runStep, (hfirst s hs).2, hp]⟩

/-- Settles O46: by the responses of a run from its record. -/
theorem runGivesOneResponsePerCommand : Obligations.RunGivesOneResponsePerCommand := by
  intro rs s
  obtain ⟨b, l, hlength, hrun⟩ := run_answersFromRecord rs s.block
  obtain ⟨p, hp⟩ := hrun s rfl
  exact ⟨_, l, hp, rfl, hlength⟩

theorem Block.Alike.refl (b : Block) : b.Alike b := ⟨rfl, rfl, rfl, rfl, rfl, rfl, fun _ _ => rfl⟩

/-- Settles O47: both runs go on from the record of reset, which fixes their responses and their last record. -/
theorem resetForgetsEverything : Obligations.ResetForgetsEverything := by
  intro rs s t s' t' htaken hs ht
  obtain ⟨b, l, -, hrun⟩ := run_answersFromRecord rs Block.reset
  obtain ⟨p, hp⟩ := hrun (resetEdge s) rfl
  obtain ⟨q, hq⟩ := hrun (resetEdge t) rfl
  obtain rfl := Host.Outcome.next.inj (hp.symm.trans hs)
  obtain rfl := Host.Outcome.next.inj (hq.symm.trans ht)
  exact ⟨congrArg (· ++ l) htaken, .refl b⟩

/-! ### The polynomial hazard (R94) -/

/-- One list of commands after another: the second goes on from the state the first left (R37). -/
theorem run_commandRun_append {is : List Instr} {s t : State} (js : List Instr) (h : run (commandRun is) s = .next t) :
    run (commandRun (is ++ js)) s = run (commandRun js) t := by
  induction is generalizing s with
  | nil =>
    obtain rfl := Host.Outcome.next.inj h
    rfl
  | cons i is ih =>
    obtain ⟨b, r, hanswer⟩ := exec_answersFromRecord i s.block
    have hfirst := hanswer s rfl
    rw [List.cons_append, run_commandRun_cons _ hfirst]
    exact ih ((run_commandRun_cons is hfirst).symm.trans h)

/-- A run whose first command is rejected writes ERR and ERRCODE, takes the rejection, and goes on (R80). -/
theorem run_commandRun_cons_of_rejection {i : Instr} {s : State} {c : RejectCode} (is : List Instr)
    (h : rejection i s.block = some c) :
    run (commandRun (i :: is)) s = run (commandRun is) { s with
      block := { s.block with err := true, errCode := c.code }
      port := .idle
      taken := s.taken ++ [⟨false, zextCode c.code⟩] } :=
  run_commandRun_cons is (exec_of_rejection h)

/-- What each command of a list keeps of the record, accepted or rejected, their run keeps; and the port stays idle. -/
theorem run_commandRun_keeps {Q : Block → Prop} {is : List Instr}
    (hkeeps : ∀ i ∈ is, ∀ s t : State, exec i s = .next t → Q s.block → Q t.block) {s : State} (hs : Q s.block)
    (hidle : s.port = .idle) : ∃ t, run (commandRun is) s = .next t ∧ Q t.block ∧ t.port = .idle := by
  induction is generalizing s with
  | nil => exact ⟨s, rfl, hs, hidle⟩
  | cons i is ih =>
    obtain ⟨hi, his⟩ := List.forall_mem_cons.mp hkeeps
    obtain ⟨b, r, hanswer⟩ := exec_answersFromRecord i s.block
    have hfirst := hanswer s rfl
    have hb : Q b := hi s _ hfirst hs
    rw [run_commandRun_cons is hfirst]
    exact ih his hb rfl

/-- Idle mode without a valid table. -/
structure Block.Unbuilt (b : Block) : Prop where
  active : b.active = false
  tableValid : b.tableValid = false

/-- BUILD alone makes a table valid, and without one START is rejected (R16, R56). -/
theorem exec_keeps_unbuilt {i : Instr} (hi : i ≠ .build) {s t : State} (h : exec i s = .next t)
    (hs : s.block.Unbuilt) : t.block.Unbuilt := by
  obtain ⟨c, -, hexec⟩ | ⟨hacc, hexec⟩ := exec_cases i s
  · obtain rfl := Host.Outcome.next.inj (hexec.symm.trans h)
    exact { hs with }
  · obtain rfl := Host.Outcome.next.inj (hexec.symm.trans h)
    cases i with
    | build => contradiction
    | start => exact absurd (hs.tableValid.symm.trans (tableValid_of_accepted hacc (.inl rfl))) Bool.false_ne_true
    | wrpoly p => exact ⟨hs.active, by simp [acceptedRecord, hs.tableValid]⟩
    | stop => exact ⟨rfl, hs.tableValid⟩
    | _ => exact { hs with }

/-- WRPOLY of a changed polynomial in idle mode invalidates the table, and it stays so until BUILD (R54, R94). -/
theorem exists_run_wrpoly_unbuilt {s : State} {p : Word} {between : List Instr} (hidle : s.block.active = false)
    (hp : p ≠ s.block.poly) (hbetween : .build ∉ between) :
    ∃ t, run (commandRun (.wrpoly p :: between)) s = .next t ∧ t.block.Unbuilt ∧ t.port = .idle := by
  have hwrpoly : rejection (.wrpoly p) s.block = none := by simp [rejection, hidle]
  have hunbuilt : (acceptedRecord (.wrpoly p) s.block).Unbuilt := ⟨hidle, by simp [acceptedRecord, hp]⟩
  rw [run_commandRun_cons_of_accepted between hwrpoly]
  exact run_commandRun_keeps (fun i hi _ _ => exec_keeps_unbuilt (ne_of_mem_of_not_mem hi hbetween)) hunbuilt rfl

/-- Settles O48: WRPOLY of a changed polynomial leaves idle mode without a table, and so does every command but BUILD; BUILD
makes the new polynomial's table; in active mode WRPOLY is rejected and writes ERR and ERRCODE only. -/
theorem polynomialHazardInterlocked : Obligations.PolynomialHazardInterlocked := by
  intro s p b
  refine ⟨fun hidle hp between hbetween => ?_, fun hidle hwf => ?_, fun hactive hvalid => ?_⟩
  · obtain ⟨t, hrun, ht, hport⟩ := exists_run_wrpoly_unbuilt hidle hp hbetween
    have hfold : rejection (.fold b) t.block = some .noTable := by simp [rejection, ht.tableValid]
    refine ⟨t, hrun, ht.active, ?_⟩
    rw [← List.cons_append, run_commandRun_append [.fold b] hrun, run_commandRun_cons_of_rejection [] hfold, ← hport]
    rfl
  · have hwrpoly : rejection (.wrpoly p) s.block = none := by simp [rejection, hidle]
    have hbuild : rejection .build (acceptedRecord (.wrpoly p) s.block) = none := hwrpoly
    have hfold : rejection (.fold b) (acceptedRecord .build (acceptedRecord (.wrpoly p) s.block)) = none := rfl
    have hread : tableRead (fillTable (buildTable p) s.block.table) = buildTable p := funext (fillTable_read _ hwf)
    refine ⟨_, (run_commandRun_cons_of_accepted _ hwrpoly).trans <| (run_commandRun_cons_of_accepted _ hbuild).trans <|
      run_commandRun_cons_of_accepted [] hfold, rfl, ?_, ?_⟩
    · simp [acceptedRecord, hread]
    · simp [acceptedData, List.replicate_succ]
  · have hwrpoly : rejection (.wrpoly p) s.block = some .cfgActive := by simp [rejection, hactive]
    have hfold : rejection (.fold b) { s.block with err := true, errCode := RejectCode.cfgActive.code } = none := by
      simp [rejection, hvalid]
    refine (run_commandRun_cons_of_rejection _ hwrpoly).trans <| (run_commandRun_cons_of_accepted [] hfold).trans ?_
    rw [List.append_assoc]
    rfl

/-! ### Boot (R93) -/

/-- The record the boot commands leave: the polynomial's table built, the mode given, no checksum begun and no error. -/
structure Block.Booted (p : Word) (mode : Bool) (b : Block) : Prop where
  tableValid : b.tableValid = true
  active : b.active = mode
  poly : b.poly = p
  acc : b.acc = 0#32
  err : b.err = false
  table : ∀ i, tableRead b.table i = buildTable p i

/-- BUILD in idle mode makes the table of whatever polynomial stands (R55). -/
theorem acceptedTo_build {b : Block} (hidle : b.active = false) (hacc : b.acc = 0#32) (herr : b.err = false)
    (hwf : b.table.wf = true) : AcceptedTo (Block.Booted b.poly false) [.build] b :=
  ⟨by simp [rejection, hidle], rfl, hidle, rfl, hacc, herr, fillTable_read _ hwf⟩

/-- START, if wanted, enters active mode (R56). -/
theorem Block.Booted.start {p : Word} {b : Block} (h : Block.Booted p false b) (start : Bool) :
    AcceptedTo (Block.Booted p start) (if start then [.start] else []) b := by
  cases start with
  | false => exact h
  | true => exact ⟨by simp [rejection, h.active, h.tableValid], { h with acc := rfl, active := rfl }⟩

/-- From a record alike reset's: WRPOLY, if wanted, then BUILD, then START, if wanted. -/
theorem acceptedTo_bootCommands {b : Block} (h : b.Alike Block.reset) (hwf : b.table.wf = true) (p : Option Word)
    (start : Bool) : AcceptedTo (Block.Booted (p.getD 0x04C11DB7#32) start) (bootCommands p start) b := by
  refine AcceptedTo.append (P := Block.Booted (p.getD 0x04C11DB7#32) false) ?_ fun _ hb => hb.start start
  cases p with
  | none => exact (show b.poly = 0x04C11DB7#32 from h.poly) ▸ acceptedTo_build h.active h.acc h.err hwf
  | some v =>
    exact ⟨by simp [rejection, show b.active = false from h.active],
      acceptedTo_build (b := acceptedRecord (.wrpoly v) b) h.active h.acc h.err hwf⟩

/-- Settles O49: without a table FOLD, RDTAB and START are rejected; the boot commands build one. -/
theorem bootBuildsTable : Obligations.BootBuildsTable := by
  intro s h hwf
  refine ⟨fun i hi => exec_of_rejection ?_, fun p start => ?_⟩
  · have hidle : s.block.active = false := h.active
    have hvalid : s.block.tableValid = false := h.tableValid
    obtain ⟨b, rfl⟩ | ⟨k, rfl⟩ | rfl := hi
    · simp [rejection, hvalid]
    · simp [rejection, hvalid]
    · simp [rejection, hidle, hvalid]
  · obtain ⟨haccepted, t, hrun, ht⟩ := (acceptedTo_bootCommands h hwf p start).run
    exact ⟨haccepted, t, hrun, ht.tableValid, ht.active, ht.poly, ht.acc, ht.err, ht.table⟩

end Sys2Proof.Machine
